-- ==== Sys2Proof/Word.lean ====
section
/-! DEFINITION. The word types of the CHIP-8 CORE (spec/00_scope.md R4, R8): every value is unsigned. -/

namespace Sys2Proof

/-- `u8`: a V register, a timer, a memory byte. -/
abbrev Byte := BitVec 8

/-- `u16`: I, pc, a call-stack slot, an opcode. -/
abbrev Word := BitVec 16

/-- A 4-bit field: a register index x or y, a row count n, a key number. -/
abbrev Nib := BitVec 4

/-- `u12`: the nnn field. -/
abbrev Addr12 := BitVec 12

end Sys2Proof
end

