-- ==== Sys2Proof/Syntax.lean ====
section
/-! DEFINITION. The instructions: one constructor for each of the 34 rows of spec/30_encoding.md R65, in the table's
order, and one for the default row of R68. -/

namespace Sys2Proof

/-- An instruction with its operand fields (R61, R63). x and y index V; n counts sprite rows; nn and nnn are
immediates. DESIGN CHOICE: the shifts keep the y field they ignore (R62), so that an encoding
loses no bit (notes/assumptions/16.md). -/
inductive Instr where
  | cls
  | ret
  | jp (nnn : Addr12)
  | call (nnn : Addr12)
  | seImm (x : Nib) (nn : Byte)
  | sneImm (x : Nib) (nn : Byte)
  | seReg (x y : Nib)
  | ldImm (x : Nib) (nn : Byte)
  | addImm (x : Nib) (nn : Byte)
  | ldReg (x y : Nib)
  | orReg (x y : Nib)
  | andReg (x y : Nib)
  | xorReg (x y : Nib)
  | addReg (x y : Nib)
  | sub (x y : Nib)
  | shr (x y : Nib)
  | subn (x y : Nib)
  | shl (x y : Nib)
  | sneReg (x y : Nib)
  | ldI (nnn : Addr12)
  | jpV0 (nnn : Addr12)
  | rnd (x : Nib) (nn : Byte)
  | drw (x y n : Nib)
  | skp (x : Nib)
  | sknp (x : Nib)
  | ldVxDt (x : Nib)
  | ldVxK (x : Nib)
  | ldDtVx (x : Nib)
  | ldStVx (x : Nib)
  | addI (x : Nib)
  | ldIF (x : Nib)
  | bcd (x : Nib)
  | ldMemVx (x : Nib)
  | ldVxMem (x : Nib)
  /-- A word that matches no row (R68): a no-operation. DESIGN CHOICE: it keeps the word (notes/assumptions/15.md). -/
  | unknown (op : Word)
  deriving DecidableEq, Repr

end Sys2Proof
end

