-- ==== Sys2Proof/WellFormed.lean ====
section
/-! DEFINITION. Well-formed instructions. Every field is exactly as wide as its encoding (spec/30_encoding.md R63), so
the 34 instructions are always well formed; an `unknown` word must lie in the unknown space of R68. -/

namespace Sys2Proof

/-- The unknown space, family by family as the table of R68 lists it (not by the decoder). -/
def isUnknownWord (op : Word) : Bool :=
  let n := op.extractLsb' 0 4
  let nn := op.extractLsb' 0 8
  match (op.extractLsb' 12 4).toNat with
  | 0x0 => op != 0x00E0#16 && op != 0x00EE#16
  | 0x5 => n != 0x0#4
  | 0x8 => [0x8#4, 0x9#4, 0xA#4, 0xB#4, 0xC#4, 0xD#4, 0xF#4].contains n
  | 0x9 => n != 0x0#4
  | 0xE => !([0x9E#8, 0xA1#8].contains nn)
  | 0xF => !([0x07#8, 0x0A#8, 0x15#8, 0x18#8, 0x1E#8, 0x29#8, 0x33#8, 0x55#8, 0x65#8].contains nn)
  | _ => false

/-- An instruction is well formed when it stands for some 16-bit word. -/
def Instr.wf : Instr → Bool
  | .unknown op => isUnknownWord op
  | .cls | .ret | .jp _ | .call _ | .seImm _ _ | .sneImm _ _ | .seReg _ _ | .ldImm _ _ | .addImm _ _
  | .ldReg _ _ | .orReg _ _ | .andReg _ _ | .xorReg _ _ | .addReg _ _ | .sub _ _ | .shr _ _ | .subn _ _
  | .shl _ _ | .sneReg _ _ | .ldI _ | .jpV0 _ | .rnd _ _ | .drw _ _ _ | .skp _ | .sknp _ | .ldVxDt _
  | .ldVxK _ | .ldDtVx _ | .ldStVx _ | .addI _ | .ldIF _ | .bcd _ | .ldMemVx _ | .ldVxMem _ => true

end Sys2Proof
end

