-- ==== Sys2Proof/Decode.lean ====
section
/-! DEFINITION. The decoder (spec/30_encoding.md R60 to R68), total on every 16-bit word and on every list of bytes; the
encoder, written from the match column and the field places of the same rules; the opcode map of R65 as data; and the
assembler text of R69. -/

namespace Sys2Proof

/-! ### Fields (R61) -/

/-- t = op[15:12]. -/
def fieldT (op : Word) : Nib := op.extractLsb' 12 4
/-- x = op[11:8]. -/
def fieldX (op : Word) : Nib := op.extractLsb' 8 4
/-- y = op[7:4]. -/
def fieldY (op : Word) : Nib := op.extractLsb' 4 4
/-- n = op[3:0]. -/
def fieldN (op : Word) : Nib := op.extractLsb' 0 4
/-- nn = op[7:0]. -/
def fieldNN (op : Word) : Byte := op.extractLsb' 0 8
/-- nnn = op[11:0]. -/
def fieldNNN (op : Word) : Addr12 := op.extractLsb' 0 12

/-! ### Decoding (R64, R65, R67, R68) -/

/-- Family 0: the whole word must be 00E0 or 00EE. -/
def decode0 (op : Word) : Instr :=
  if op = 0x00E0#16 then .cls
  else if op = 0x00EE#16 then .ret
  else .unknown op

/-- Family 5: op[3:0] must be 0. -/
def decode5 (op : Word) : Instr :=
  if fieldN op = 0x0#4 then .seReg (fieldX op) (fieldY op) else .unknown op

/-- Family 8: op[3:0] selects. -/
def decode8 (op : Word) : Instr :=
  let x := fieldX op
  let y := fieldY op
  match fieldN op with
  | 0x0#4 => .ldReg x y
  | 0x1#4 => .orReg x y
  | 0x2#4 => .andReg x y
  | 0x3#4 => .xorReg x y
  | 0x4#4 => .addReg x y
  | 0x5#4 => .sub x y
  | 0x6#4 => .shr x y
  | 0x7#4 => .subn x y
  | 0xE#4 => .shl x y
  | _ => .unknown op

/-- Family 9: op[3:0] must be 0. -/
def decode9 (op : Word) : Instr :=
  if fieldN op = 0x0#4 then .sneReg (fieldX op) (fieldY op) else .unknown op

/-- Family E: op[7:0] selects. -/
def decodeE (op : Word) : Instr :=
  let x := fieldX op
  match fieldNN op with
  | 0x9E#8 => .skp x
  | 0xA1#8 => .sknp x
  | _ => .unknown op

/-- Family F: op[7:0] selects. -/
def decodeF (op : Word) : Instr :=
  let x := fieldX op
  match fieldNN op with
  | 0x07#8 => .ldVxDt x
  | 0x0A#8 => .ldVxK x
  | 0x15#8 => .ldDtVx x
  | 0x18#8 => .ldStVx x
  | 0x1E#8 => .addI x
  | 0x29#8 => .ldIF x
  | 0x33#8 => .bcd x
  | 0x55#8 => .ldMemVx x
  | 0x65#8 => .ldVxMem x
  | _ => .unknown op

/-- The instruction a word stands for: the two-level selection of R64, total. -/
def decode (op : Word) : Instr :=
  match fieldT op with
  | 0x0#4 => decode0 op
  | 0x1#4 => .jp (fieldNNN op)
  | 0x2#4 => .call (fieldNNN op)
  | 0x3#4 => .seImm (fieldX op) (fieldNN op)
  | 0x4#4 => .sneImm (fieldX op) (fieldNN op)
  | 0x5#4 => decode5 op
  | 0x6#4 => .ldImm (fieldX op) (fieldNN op)
  | 0x7#4 => .addImm (fieldX op) (fieldNN op)
  | 0x8#4 => decode8 op
  | 0x9#4 => decode9 op
  | 0xA#4 => .ldI (fieldNNN op)
  | 0xB#4 => .jpV0 (fieldNNN op)
  | 0xC#4 => .rnd (fieldX op) (fieldNN op)
  | 0xD#4 => .drw (fieldX op) (fieldY op) (fieldN op)
  | 0xE#4 => decodeE op
  | _ => decodeF op  -- 0xF, the one value left

/-- Why a list of bytes holds no instruction: no WORD is refused (R64 "Dispatch must be total"), only a list that ends
inside one (R60: every instruction is two bytes). -/
inductive DecodeError where
  | noBytes
  | halfWord (first : Byte)
  deriving DecidableEq, Repr

/-- Two bytes as a big-endian word: the byte at the lower address is op[15:8] (R43, R60). -/
def wordOfBytes (hi lo : Byte) : Word := hi ++ lo

/-- One instruction off the front of a list of bytes, with the rest. -/
def decodeBytes : List Byte → Except DecodeError (Instr × List Byte)
  | [] => .error .noBytes
  | [b] => .error (.halfWord b)
  | hi :: lo :: rest => .ok (decode (wordOfBytes hi lo), rest)

/-! ### Encoding (the match column of R65 with the fields of R62) -/

/-- Format NNN: t, nnn. -/
def encNNN (t : Nib) (nnn : Addr12) : Word := t ++ nnn
/-- Formats XNN and XFF: t, x, and an immediate or a secondary opcode. -/
def encXNN (t x : Nib) (nn : Byte) : Word := (t ++ x) ++ nn
/-- Formats XYN and XYF: t, x, y, and a count or a secondary opcode. -/
def encXYN (t x y n : Nib) : Word := ((t ++ x) ++ y) ++ n

/-- The word of an instruction. -/
def encode : Instr → Word
  | .cls => 0x00E0#16
  | .ret => 0x00EE#16
  | .jp nnn => encNNN 0x1#4 nnn
  | .call nnn => encNNN 0x2#4 nnn
  | .seImm x nn => encXNN 0x3#4 x nn
  | .sneImm x nn => encXNN 0x4#4 x nn
  | .seReg x y => encXYN 0x5#4 x y 0x0#4
  | .ldImm x nn => encXNN 0x6#4 x nn
  | .addImm x nn => encXNN 0x7#4 x nn
  | .ldReg x y => encXYN 0x8#4 x y 0x0#4
  | .orReg x y => encXYN 0x8#4 x y 0x1#4
  | .andReg x y => encXYN 0x8#4 x y 0x2#4
  | .xorReg x y => encXYN 0x8#4 x y 0x3#4
  | .addReg x y => encXYN 0x8#4 x y 0x4#4
  | .sub x y => encXYN 0x8#4 x y 0x5#4
  | .shr x y => encXYN 0x8#4 x y 0x6#4
  | .subn x y => encXYN 0x8#4 x y 0x7#4
  | .shl x y => encXYN 0x8#4 x y 0xE#4
  | .sneReg x y => encXYN 0x9#4 x y 0x0#4
  | .ldI nnn => encNNN 0xA#4 nnn
  | .jpV0 nnn => encNNN 0xB#4 nnn
  | .rnd x nn => encXNN 0xC#4 x nn
  | .drw x y n => encXYN 0xD#4 x y n
  | .skp x => encXNN 0xE#4 x 0x9E#8
  | .sknp x => encXNN 0xE#4 x 0xA1#8
  | .ldVxDt x => encXNN 0xF#4 x 0x07#8
  | .ldVxK x => encXNN 0xF#4 x 0x0A#8
  | .ldDtVx x => encXNN 0xF#4 x 0x15#8
  | .ldStVx x => encXNN 0xF#4 x 0x18#8
  | .addI x => encXNN 0xF#4 x 0x1E#8
  | .ldIF x => encXNN 0xF#4 x 0x29#8
  | .bcd x => encXNN 0xF#4 x 0x33#8
  | .ldMemVx x => encXNN 0xF#4 x 0x55#8
  | .ldVxMem x => encXNN 0xF#4 x 0x65#8
  | .unknown op => op

/-- The high byte op[15:8], stored at the lower address (R43). -/
def wordHi (op : Word) : Byte := op.extractLsb' 8 8
/-- The low byte op[7:0]. -/
def wordLo (op : Word) : Byte := op.extractLsb' 0 8

/-- The two bytes of a word in memory order. -/
def bytesOfWord (op : Word) : List Byte := [wordHi op, wordLo op]

/-- The bytes of an instruction in memory order. -/
def encodeBytes (i : Instr) : List Byte := bytesOfWord (encode i)

/-- The word the host's opcode table means by `nbits` bits of value `w`: bits from nbits up are 0, and an instruction
has no bit above bit 15 (R60). -/
def tableWord (nbits w : Nat) : Word := BitVec.ofNat 16 (w % 2 ^ nbits)

/-- The instruction the decoder reads from that word laid out in memory order. -/
def decodeTableWord (nbits w : Nat) : Option Instr :=
  match decodeBytes (bytesOfWord (tableWord nbits w)) with
  | .ok (i, _) => some i
  | .error _ => none

/-! ### The opcode map as data (R65) -/

/-- The name of an instruction's row in spec/opcode_table.json. -/
def Instr.mnemonic : Instr → String
  | .cls => "CLS"
  | .ret => "RET"
  | .jp _ => "JP"
  | .call _ => "CALL"
  | .seImm _ _ => "SE_imm"
  | .sneImm _ _ => "SNE_imm"
  | .seReg _ _ => "SE_reg"
  | .ldImm _ _ => "LD_imm"
  | .addImm _ _ => "ADD_imm"
  | .ldReg _ _ => "LD_reg"
  | .orReg _ _ => "OR"
  | .andReg _ _ => "AND"
  | .xorReg _ _ => "XOR"
  | .addReg _ _ => "ADD_reg"
  | .sub _ _ => "SUB"
  | .shr _ _ => "SHR"
  | .subn _ _ => "SUBN"
  | .shl _ _ => "SHL"
  | .sneReg _ _ => "SNE_reg"
  | .ldI _ => "LD_I"
  | .jpV0 _ => "JP_V0"
  | .rnd _ _ => "RND"
  | .drw _ _ _ => "DRW"
  | .skp _ => "SKP"
  | .sknp _ => "SKNP"
  | .ldVxDt _ => "LD_Vx_DT"
  | .ldVxK _ => "LD_Vx_K"
  | .ldDtVx _ => "LD_DT_Vx"
  | .ldStVx _ => "LD_ST_Vx"
  | .addI _ => "ADD_I"
  | .ldIF _ => "LD_I_F"
  | .bcd _ => "BCD"
  | .ldMemVx _ => "LD_mem_Vx"
  | .ldVxMem _ => "LD_Vx_mem"
  | .unknown _ => "UNKNOWN"

/-- One row of the opcode map: a word selects it when `op & mask == value` (R65). -/
structure OpcodeRow where
  mnemonic : String
  value : Word
  mask : Word
  deriving DecidableEq, Repr

/-- A word selects a row. -/
def OpcodeRow.selects (r : OpcodeRow) (op : Word) : Bool := op &&& r.mask == r.value

/-- Rows of families 0 to 7 (R65 rows 1 to 9). -/
def opcodeRows0to7 : List OpcodeRow :=
  [⟨"CLS", 0x00E0#16, 0xFFFF#16⟩, ⟨"RET", 0x00EE#16, 0xFFFF#16⟩, ⟨"JP", 0x1000#16, 0xF000#16⟩,
   ⟨"CALL", 0x2000#16, 0xF000#16⟩, ⟨"SE_imm", 0x3000#16, 0xF000#16⟩, ⟨"SNE_imm", 0x4000#16, 0xF000#16⟩,
   ⟨"SE_reg", 0x5000#16, 0xF00F#16⟩, ⟨"LD_imm", 0x6000#16, 0xF000#16⟩, ⟨"ADD_imm", 0x7000#16, 0xF000#16⟩]

/-- Rows of family 8 (R65 rows 10 to 18). -/
def opcodeRows8 : List OpcodeRow :=
  [⟨"LD_reg", 0x8000#16, 0xF00F#16⟩, ⟨"OR", 0x8001#16, 0xF00F#16⟩, ⟨"AND", 0x8002#16, 0xF00F#16⟩,
   ⟨"XOR", 0x8003#16, 0xF00F#16⟩, ⟨"ADD_reg", 0x8004#16, 0xF00F#16⟩, ⟨"SUB", 0x8005#16, 0xF00F#16⟩,
   ⟨"SHR", 0x8006#16, 0xF00F#16⟩, ⟨"SUBN", 0x8007#16, 0xF00F#16⟩, ⟨"SHL", 0x800E#16, 0xF00F#16⟩]

/-- Rows of families 9 to E (R65 rows 19 to 25). -/
def opcodeRows9toE : List OpcodeRow :=
  [⟨"SNE_reg", 0x9000#16, 0xF00F#16⟩, ⟨"LD_I", 0xA000#16, 0xF000#16⟩, ⟨"JP_V0", 0xB000#16, 0xF000#16⟩,
   ⟨"RND", 0xC000#16, 0xF000#16⟩, ⟨"DRW", 0xD000#16, 0xF000#16⟩, ⟨"SKP", 0xE09E#16, 0xF0FF#16⟩,
   ⟨"SKNP", 0xE0A1#16, 0xF0FF#16⟩]

/-- Rows of family F (R65 rows 26 to 34). -/
def opcodeRowsF : List OpcodeRow :=
  [⟨"LD_Vx_DT", 0xF007#16, 0xF0FF#16⟩, ⟨"LD_Vx_K", 0xF00A#16, 0xF0FF#16⟩, ⟨"LD_DT_Vx", 0xF015#16, 0xF0FF#16⟩,
   ⟨"LD_ST_Vx", 0xF018#16, 0xF0FF#16⟩, ⟨"ADD_I", 0xF01E#16, 0xF0FF#16⟩, ⟨"LD_I_F", 0xF029#16, 0xF0FF#16⟩,
   ⟨"BCD", 0xF033#16, 0xF0FF#16⟩, ⟨"LD_mem_Vx", 0xF055#16, 0xF0FF#16⟩, ⟨"LD_Vx_mem", 0xF065#16, 0xF0FF#16⟩]

/-- The 34 rows of R65. -/
def opcodeTable : List OpcodeRow := opcodeRows0to7 ++ opcodeRows8 ++ opcodeRows9toE ++ opcodeRowsF

/-! ### Assembler text (R69, R70: this spec's own presentation, decision D23) -/

/-- A hexadecimal digit. -/
def hexDigit (d : Nib) : String :=
  ["0", "1", "2", "3", "4", "5", "6", "7", "8", "9", "A", "B", "C", "D", "E", "F"].getD d.toNat ""

/-- A register's name. -/
def regName (x : Nib) : String := "V" ++ hexDigit x

/-- A byte as a literal. -/
def hexByte (b : Byte) : String := "0x" ++ hexDigit (b.extractLsb' 4 4) ++ hexDigit (b.extractLsb' 0 4)

/-- A 12-bit address as a literal. -/
def hexAddr (a : Addr12) : String :=
  "0x" ++ hexDigit (a.extractLsb' 8 4) ++ hexDigit (a.extractLsb' 4 4) ++ hexDigit (a.extractLsb' 0 4)

/-- The line of assembly an instruction is written as; an unknown word is a raw word. -/
def Instr.assembly : Instr → String
  | .cls => "CLS"
  | .ret => "RET"
  | .jp nnn => "JP " ++ hexAddr nnn
  | .call nnn => "CALL " ++ hexAddr nnn
  | .seImm x nn => "SE " ++ regName x ++ ", " ++ hexByte nn
  | .sneImm x nn => "SNE " ++ regName x ++ ", " ++ hexByte nn
  | .seReg x y => "SE " ++ regName x ++ ", " ++ regName y
  | .ldImm x nn => "LD " ++ regName x ++ ", " ++ hexByte nn
  | .addImm x nn => "ADD " ++ regName x ++ ", " ++ hexByte nn
  | .ldReg x y => "LD " ++ regName x ++ ", " ++ regName y
  | .orReg x y => "OR " ++ regName x ++ ", " ++ regName y
  | .andReg x y => "AND " ++ regName x ++ ", " ++ regName y
  | .xorReg x y => "XOR " ++ regName x ++ ", " ++ regName y
  | .addReg x y => "ADD " ++ regName x ++ ", " ++ regName y
  | .sub x y => "SUB " ++ regName x ++ ", " ++ regName y
  | .shr x _ => "SHR " ++ regName x
  | .subn x y => "SUBN " ++ regName x ++ ", " ++ regName y
  | .shl x _ => "SHL " ++ regName x
  | .sneReg x y => "SNE " ++ regName x ++ ", " ++ regName y
  | .ldI nnn => "LD I, " ++ hexAddr nnn
  | .jpV0 nnn => "JP V0, " ++ hexAddr nnn
  | .rnd x nn => "RND " ++ regName x ++ ", " ++ hexByte nn
  | .drw x y n => "DRW " ++ regName x ++ ", " ++ regName y ++ ", 0x" ++ hexDigit n
  | .skp x => "SKP " ++ regName x
  | .sknp x => "SKNP " ++ regName x
  | .ldVxDt x => "LD " ++ regName x ++ ", DT"
  | .ldVxK x => "LD " ++ regName x ++ ", K"
  | .ldDtVx x => "LD DT, " ++ regName x
  | .ldStVx x => "LD ST, " ++ regName x
  | .addI x => "ADD I, " ++ regName x
  | .ldIF x => "LD I, F(" ++ regName x ++ ")"
  | .bcd x => "BCD " ++ regName x
  | .ldMemVx x => "LD [I], " ++ regName x
  | .ldVxMem x => "LD " ++ regName x ++ ", [I]"
  | .unknown op =>
    "DW 0x" ++ hexDigit (fieldT op) ++ hexDigit (fieldX op) ++ hexDigit (fieldY op) ++ hexDigit (fieldN op)

end Sys2Proof
end

