-- ==== Sys2Proof/Config.lean ====
section
/-! DEFINITION. What an implementation fixes (spec/00_scope.md R4, R5), and the one free value of the model, the
random byte of a Step. The FONT_TABLE bytes and the value of TIMER_COUPLING stand in Machine/Ops.lean. -/

namespace Sys2Proof.Config

/-- MEM_SIZE of R4: bytes of M. -/
abbrev memSize : Nat := 4096

/-- PROGRAM_BASE of R4: where LoadProgram places an image, and the pc after Reset. -/
abbrev programBase : Nat := 0x200

/-- MAX_PROGRAM_BYTES of R4: 4096 - 0x200. -/
abbrev maxProgramBytes : Nat := 3584

/-- TIMER_COUPLING of R5: whether a Step ends with one TickTimers, or TickTimers is a host operation. -/
inductive TimerCoupling where
  | perStep
  | external
  deriving DecidableEq, Repr

/-- FREE VALUE. `rnd n` is the draw `rnd : u8` of the Step numbered n (R5, R111, decision D20): any byte, under no
law. It has no body, so no proof can know a value of it (notes/assumptions/1.md). -/
opaque rnd : Nat → Byte

end Sys2Proof.Config
end

