-- ==== Sys2Proof/Machine/State.lean ====
section
/-! DEFINITION. The whole state of the CHIP-8 CORE (spec/10_state.md, the tuple at its head), the reasons a run or a host
operation can stop, and the state after Reset. -/

namespace Sys2Proof.Machine

/-- M (R22): the listed bytes, addresses strictly rising, no entry equal to what an unlisted address reads as
(`Memory.unlisted`, the contents after Reset). The form is `Memory.wf` in Machine/Ops.lean. -/
abbrev Memory := List Host.Cell

/-- PIX (R19): 64 columns of 32 cells, `PIX[cx][cy]`. -/
abbrev Grid := Vector (Vector Bool 32) 64

/-- Every piece of state the spec gives the machine (spec/10_state.md), and the model's own draw counter. -/
structure State where
  /-- V[0..15] (R10); V[15] is VF (R11). -/
  v : Vector Byte 16
  /-- The index register I (R14). -/
  i : Word
  /-- The program counter (R12, R13). -/
  pc : Word
  /-- STACK[0..15] (R15). -/
  stack : Vector Word 16
  /-- SP, 0..16 (R16). -/
  sp : Fin 17
  /-- The delay timer DT (R17). -/
  dt : Byte
  /-- The sound timer ST (R18). -/
  st : Byte
  /-- The pixel grid PIX (R19). -/
  pix : Grid
  /-- The key latch KEY[0..15] (R20). -/
  key : Vector Bool 16
  /-- The draw-dirty flag DIRTY (R21). -/
  dirty : Bool
  /-- The main memory M (R22). -/
  mem : Memory
  /-- THE MODEL'S OWN: how many Steps have returned OK, the index of this Step's draw `Config.rnd draws`
  (R5, R111; notes/assumptions/1.md). -/
  draws : Nat
  deriving DecidableEq, Repr

/-- The three fault conditions of R150, delivered to the host; the machine's state stays as it was (R82, R153). Each
is the spec's own, so stopping there is safe. -/
inductive Fault where
  /-- Raised by 2nnn CALL only, when SP = 16 (R151), with pc0, the address of the CALL. Safe. -/
  | stackOverflow (pc0 : Word)
  /-- Raised by 00EE RET only, when SP = 0 (R152), with pc0, the address of the RET. Safe. -/
  | stackUnderflow (pc0 : Word)
  /-- Raised by the host operation LoadProgram only, for an image longer than 3584 bytes (R154), with the offered
  length. No Step raises it. Safe. -/
  | loadError (length : Nat)
  deriving DecidableEq, Repr

/-- What has no meaning. No Step of this model is refused; the others are host operations outside their domain. -/
inductive Refusal where
  /-- An arm of `exec` without a meaning yet; no arm of this model raises it. Safe. -/
  | notModelled (mnemonic : String)
  /-- SetKey with an index outside 0..15 (R160, decision D21). Safe. -/
  | setKeyOutOfRange (index : Nat)
  /-- ReadPixel with coordinates outside 64 x 32 (R161, decision D21). Safe. -/
  | readPixelOutOfRange (cx cy : Nat)
  /-- The host asks for TickTimers while TIMER_COUPLING = per_step: there is no such operation then (R164). Safe. -/
  | noHostTick
  deriving DecidableEq, Repr

/-- What a meaning answers. -/
abbrev Result := Host.Outcome State Fault Refusal

/-- The state after Reset (R24, R180) for a given vector of keys, which Reset does not write (D7). Nothing is listed in
memory: an unlisted address reads as the font or as zero. -/
def State.resetWith (keys : Vector Bool 16) : State where
  v := Vector.replicate 16 0x00
  i := 0x0000
  pc := 0x0200
  stack := Vector.replicate 16 0x0000
  sp := 0
  dt := 0x00
  st := 0x00
  pix := Vector.replicate 64 (Vector.replicate 32 false)
  key := keys
  dirty := false
  mem := []
  draws := 0

/-- The machine right after Reset. DESIGN CHOICE: no key is pressed; the spec leaves KEY unspecified before the first
SetKey (R24, D7; notes/assumptions/2.md). -/
def State.reset : State := State.resetWith (Vector.replicate 16 false)

end Sys2Proof.Machine
end

