-- ==== Sys2Proof/Machine/Ops.lean ====
section
/-! DEFINITION. The named operations over memory and registers (spec/20_memory.md R40 to R47, spec/10_state.md), the parts
of a Step around the instruction (spec/40_step_cycle.md), and raising a fault (spec/60_exceptions.md R153). -/

namespace Sys2Proof.Machine

/-! ### Parameters with a value (R5) -/

/-- TIMER_COUPLING: the value this hardware takes (R5, R84, conflict C1, decision D2; notes/assumptions/4.md). -/
def timerCoupling : Config.TimerCoupling := .perStep

/-- FONT_TABLE (R182): 16 glyphs of 5 bytes. The bytes are the spec's default `[from general knowledge, not in source]`
(D8; notes/assumptions/3.md). -/
def fontTable : List Byte :=
  [0xF0, 0x90, 0x90, 0x90, 0xF0] ++ [0x20, 0x60, 0x20, 0x20, 0x70] ++
  [0xF0, 0x10, 0xF0, 0x80, 0xF0] ++ [0xF0, 0x10, 0xF0, 0x10, 0xF0] ++
  [0x90, 0x90, 0xF0, 0x10, 0x10] ++ [0xF0, 0x80, 0xF0, 0x10, 0xF0] ++
  [0xF0, 0x80, 0xF0, 0x90, 0xF0] ++ [0xF0, 0x10, 0x20, 0x40, 0x40] ++
  [0xF0, 0x90, 0xF0, 0x90, 0xF0] ++ [0xF0, 0x90, 0xF0, 0x10, 0xF0] ++
  [0xF0, 0x90, 0xF0, 0x90, 0x90] ++ [0xE0, 0x90, 0xE0, 0x90, 0xE0] ++
  [0xF0, 0x80, 0x80, 0x80, 0xF0] ++ [0xE0, 0x90, 0x90, 0x90, 0xE0] ++
  [0xF0, 0x80, 0xF0, 0x80, 0xF0] ++ [0xF0, 0x80, 0xF0, 0x80, 0x80]

/-! ### Memory (R40 to R44, R48) -/

/-- What an unlisted address of M reads as: its contents after Reset (R24, R48, R180), the font at 0x000..0x04F and
zero above. -/
def Memory.unlisted (a : Nat) : Byte := fontTable.getD a 0x00

/-- The address the memory port uses: every address is reduced modulo 4096 (R44). -/
def memAddr (a : Nat) : Nat := a % Config.memSize

/-- The byte a list gives for an address. -/
def Memory.lookup : Memory → Nat → Byte
  | [], a => Memory.unlisted a
  | (k, c) :: m, a => if a = k then c else Memory.lookup m a

/-- A cell, unless it says what the address reads as unlisted anyway. -/
def Memory.cell (a : Nat) (b : Byte) : Memory := if b = Memory.unlisted a then [] else [(a, b)]

/-- Put a byte at its place in the rising list. -/
def Memory.insert : Memory → Nat → Byte → Memory
  | [], a, b => Memory.cell a b
  | (k, c) :: m, a, b =>
    if a < k then Memory.cell a b ++ (k, c) :: m
    else if a = k then Memory.cell a b ++ m
    else (k, c) :: Memory.insert m a b

/-- `MemRead(addr, 1)` (R41). -/
def Memory.read (m : Memory) (a : Nat) : Byte := Memory.lookup m (memAddr a)

/-- `MemWrite(addr, 1, v)` (R42). -/
def Memory.write (m : Memory) (a : Nat) (b : Byte) : Memory := Memory.insert m (memAddr a) b

/-- Canonical from an address on: strictly rising, inside M, no entry equal to the unlisted value. -/
def Memory.wfFrom : Nat → Memory → Bool
  | _, [] => true
  | lo, (a, b) :: m =>
    decide (lo ≤ a) && decide (a < Config.memSize) && decide (b ≠ Memory.unlisted a) && Memory.wfFrom (a + 1) m

/-- The canonical form of memory. -/
def Memory.wf (m : Memory) : Bool := Memory.wfFrom 0 m

/-! ### One setter for each piece of state -/

/-- `I <- v` (R14). -/
def State.setI (s : State) (w : Word) : State := { s with i := w }
/-- `pc <- target` (R13). -/
def State.setPc (s : State) (w : Word) : State := { s with pc := w }
/-- A call-stack write (R15). -/
def State.setStack (s : State) (k : Vector Word 16) : State := { s with stack := k }
/-- `SP <- v` (R16). -/
def State.setSp (s : State) (k : Fin 17) : State := { s with sp := k }
/-- `DT <- v` (R17). -/
def State.setDt (s : State) (b : Byte) : State := { s with dt := b }
/-- `ST <- v` (R18). -/
def State.setSt (s : State) (b : Byte) : State := { s with st := b }
/-- A write of the pixel grid (R19). -/
def State.setPix (s : State) (g : Grid) : State := { s with pix := g }
/-- A write of the key latch (R20). -/
def State.setKey (s : State) (k : Vector Bool 16) : State := { s with key := k }
/-- `DIRTY <- v` (R21). -/
def State.setDirty (s : State) (b : Bool) : State := { s with dirty := b }
/-- A write of the memory (R22). -/
def State.setMem (s : State) (m : Memory) : State := { s with mem := m }
/-- The next draw's index (the model's own). -/
def State.setDraws (s : State) (n : Nat) : State := { s with draws := n }

/-- `V[x]` (R10): no register is hard-wired. -/
def State.getV (s : State) (x : Nib) : Byte := s.v[x.toNat]'x.isLt
/-- `V[x] <- b` (R10). -/
def State.setV (s : State) (x : Nib) (b : Byte) : State := { s with v := s.v.set x.toNat b x.isLt }

/-- One byte of M (R41). -/
def State.readMem (s : State) (a : Nat) : Byte := s.mem.read a
/-- Store one byte of M (R42). -/
def State.writeMem (s : State) (a : Nat) (b : Byte) : State := s.setMem (s.mem.write a b)

/-- `KEY[k]` (R20). -/
def State.keyPressed (s : State) (k : Nib) : Bool := s.key[k.toNat]'k.isLt

/-- Store a list of bytes at ascending addresses (R46). -/
def State.storeBytes (s : State) (a : Nat) : List Byte → State
  | [] => s
  | b :: bs => (s.writeMem a b).storeBytes (a + 1) bs

/-! ### The call stack (R15) -/

/-- `STACK[SP] <- w; SP <- SP + 1`, legal only when SP < 16. -/
def State.push (s : State) (w : Word) : Option State :=
  if h : s.sp.val < 16 then
    some ((s.setStack (s.stack.set s.sp.val w h)).setSp ⟨s.sp.val + 1, by omega⟩)
  else none

/-- `SP <- SP - 1`, with `STACK[SP]`, legal only when SP > 0; the slot keeps its content (D18). -/
def State.pop (s : State) : Option (Word × State) :=
  if h : 0 < s.sp.val then
    some (s.stack[s.sp.val - 1]'(by omega), s.setSp ⟨s.sp.val - 1, by omega⟩)
  else none

/-! ### The program counter (R12, R13, R81, R85) -/

/-- `pc <- (pc + 2) mod 65536`: the advance after the fetch (R81). -/
def State.advance (s : State) : State := s.setPc (s.pc + 2)

/-- pc0, the address the executing instruction was fetched from: `(pc - 2) mod 65536` (R8). -/
def State.pc0 (s : State) : Word := s.pc - 2

/-- The skip primitive on the advanced pc (R85), under a condition. -/
def State.skipIf (s : State) (c : Bool) : State := if c then s.setPc (s.pc + 2) else s

/-- Fetch: two bytes, big-endian, whatever the parity of pc (R43, R45, R81). -/
def State.fetch (s : State) : Word := wordOfBytes (s.readMem s.pc.toNat) (s.readMem (s.pc.toNat + 1))

/-- Store a word's two bytes where the next fetch reads. -/
def State.placeWord (s : State) (op : Word) : State := s.storeBytes s.pc.toNat (bytesOfWord op)

/-! ### Timers (R83, R84) -/

/-- One down-count, saturating at zero. -/
def countDown (b : Byte) : Byte := if b = 0x00 then 0x00 else b - 1

/-- `TickTimers()` (R83). -/
def State.tickTimers (s : State) : State := (s.setDt (countDown s.dt)).setSt (countDown s.st)

/-- Step 4 of R80 under a given coupling (R84). -/
def State.tickUnder (c : Config.TimerCoupling) (s : State) : State :=
  match c with
  | .perStep => s.tickTimers
  | .external => s

/-- The end of a Step that returns OK: the timer tick, and the draw is used up (R5: a fresh draw each Step). -/
def State.endStep (c : Config.TimerCoupling) (s : State) : State :=
  (s.tickUnder c).setDraws (s.draws + 1)

/-- The draw of the current Step (R5, R111): a free value. -/
def State.rndByte (s : State) : Byte := Config.rnd s.draws

/-! ### Faults (R150 to R156) -/

/-- `raise F` (R8, R153), the one way a Step stops: there is no handler, vector, saved-pc or mode; the fault goes to the
host and the Step's writes are discarded. There is no return from a fault (R156). -/
def raise (f : Fault) : Result := .fault f

/-- The numeric code of a fault (R150, decision D19). -/
def Fault.code : Fault → Nat
  | .stackOverflow _ => 1
  | .stackUnderflow _ => 2
  | .loadError _ => 3

/-- The code a host sees for an outcome: 0 is OK (R86, R150); a refusal is outside the spec's codes. -/
def statusCode {α : Type} : Host.Outcome α Fault Refusal → Option Nat
  | .next _ => some 0
  | .fault f => some f.code
  | .refused _ => none

end Sys2Proof.Machine
end

