-- ==== Sys2Proof/Machine/Operands.lean ====
section
/-! DEFINITION. The operand forms (spec/30_encoding.md R63, spec/43_index_memory.md): immediates are used as they are, the
one addressing mode is index plus constant offset, and a key or a glyph is named by a register's value. -/

namespace Sys2Proof.Machine

/-- `zext_16(nnn)` (R63). -/
def zext12 (nnn : Addr12) : Word := nnn.setWidth 16

/-- `zext_16` of a register's value (R97, R121, R122). -/
def zext8 (b : Byte) : Word := b.setWidth 16

/-- The effective address `I + k` (spec/43_index_memory.md, preamble); the memory port reduces it modulo 4096 (R44). -/
def State.dataAddr (s : State) (k : Nat) : Nat := s.i.toNat + k

/-- The key a register's value selects: `V[x] mod 16` (R140, decision D11). -/
def keyIndex (b : Byte) : Nib := b.setWidth 4

/-- The glyph address of Fx29: 5 * Vx for all 256 values (R122, decision D12). -/
def glyphAddr (b : Byte) : Word := zext8 b * 5

/-- The decimal digits of a byte, hundreds first (R123). -/
def bcdDigits (a : Byte) : List Byte :=
  [BitVec.ofNat 8 (a.toNat / 100), BitVec.ofNat 8 (a.toNat / 10 % 10), BitVec.ofNat 8 (a.toNat % 10)]

/-- `for k in 0..n-1: MemWrite(I + k, 1, V[k])`, ascending (R124). -/
def State.storeRegs : Nat → State → State
  | 0, s => s
  | k + 1, s =>
    let s' := State.storeRegs k s
    s'.writeMem (s'.dataAddr k) (s'.getV (BitVec.ofNat 4 k))

/-- `for k in 0..n-1: V[k] <- MemRead(I + k, 1)`, ascending (R125). -/
def State.loadRegs : Nat → State → State
  | 0, s => s
  | k + 1, s =>
    let s' := State.loadRegs k s
    s'.setV (BitVec.ofNat 4 k) (s'.readMem (s'.dataAddr k))

/-- KEY_SELECT (R143, decision D9): the lowest pressed key, none when no key is pressed. -/
def State.lowestKey (s : State) : Option Nib :=
  ((List.range 16).map (BitVec.ofNat 4)).find? s.keyPressed

end Sys2Proof.Machine
end

