-- ==== Sys2Proof/Machine/Flags.lean ====
section
/-! DEFINITION. The flag computations (spec/10_state.md R11, spec/42_load_alu_random.md R112): VF is the only status output, and the
six writers of it write 0 or 1, after the result. -/

namespace Sys2Proof.Machine

/-- VF is V[15] (R11). -/
abbrev VF : Nib := 0xF#4

/-- A flag as a register value: 0 or 1 (R11). -/
def flagByte (c : Bool) : Byte := if c then 0x01 else 0x00

/-- 8xy4: the carry out of bit 7 (R106). -/
def carry (a b : Byte) : Bool := decide (a.toNat + b.toNat > 255)

/-- NOT borrow of `a - b`, 1 when they are equal (R107, R109, R113). -/
def notBorrow (a b : Byte) : Bool := decide (b.toNat ≤ a.toNat)

/-- 8xy6: the bit shifted out to the right (R108). -/
def shrOut (a : Byte) : Bool := a.getLsbD 0

/-- 8xyE: the bit shifted out to the left (R110). -/
def shlOut (a : Byte) : Bool := a.getLsbD 7

/-- `V[15] <- flag`. -/
def State.setFlag (s : State) (c : Bool) : State := s.setV VF (flagByte c)

/-- Steps (3) and (4) of R112: the result to V[x], then the flag to VF, which wins when x = 15. -/
def State.writeWithFlag (s : State) (x : Nib) (r : Byte) (c : Bool) : State := (s.setV x r).setFlag c

end Sys2Proof.Machine
end

