-- ==== Sys2Proof/Machine/ControlFlow.lean ====
section
/-! DEFINITION. Control transfer (spec/41_control_flow.md) and the unknown opcode (spec/30_encoding.md R68). In every meaning the
state's pc is already the address of the instruction plus 2 (R81). -/

namespace Sys2Proof.Machine

/-- `RET` (R90). The test precedes every write. -/
def execRet (s : State) : Result :=
  match s.pop with
  | some (w, t) => .next (t.setPc w)
  | none => raise (.stackUnderflow s.pc0)

/-- `JP nnn` (R91). -/
def execJp (nnn : Addr12) (s : State) : Result := .next (s.setPc (zext12 nnn))

/-- `CALL nnn` (R92): the pushed value is the advanced pc. The test precedes every write. -/
def execCall (nnn : Addr12) (s : State) : Result :=
  match s.push s.pc with
  | some t => .next (t.setPc (zext12 nnn))
  | none => raise (.stackOverflow s.pc0)

/-- `SE Vx, nn` (R93). -/
def execSeImm (x : Nib) (nn : Byte) (s : State) : Result := .next (s.skipIf (s.getV x == nn))

/-- `SNE Vx, nn` (R94). -/
def execSneImm (x : Nib) (nn : Byte) (s : State) : Result := .next (s.skipIf (s.getV x != nn))

/-- `SE Vx, Vy` (R95). -/
def execSeReg (x y : Nib) (s : State) : Result := .next (s.skipIf (s.getV x == s.getV y))

/-- `SNE Vx, Vy` (R96). -/
def execSneReg (x y : Nib) (s : State) : Result := .next (s.skipIf (s.getV x != s.getV y))

/-- `JP V0, nnn` (R97): the sum is not reduced to 12 bits. -/
def execJpV0 (nnn : Addr12) (s : State) : Result := .next (s.setPc (zext12 nnn + zext8 (s.getV 0x0#4)))

/-- A word that matches no row (R68): a no-operation, never a fault. -/
def execUnknown (_op : Word) (s : State) : Result := .next s

end Sys2Proof.Machine
end

