-- ==== Sys2Proof/Machine/Display.lean ====
section
/-! DEFINITION. The display instructions (spec/44_display.md): a 64 x 32 grid of cells, XOR draw with collision, wrap without
clipping. -/

namespace Sys2Proof.Machine

/-- `PIX[cx][cy]`, both coordinates reduced to the grid. -/
def Grid.get (g : Grid) (cx cy : Nat) : Bool :=
  (g[cx % 64]'(Nat.mod_lt _ (by decide)))[cy % 32]'(Nat.mod_lt _ (by decide))

/-- `PIX[cx][cy] <- PIX[cx][cy] ^ 1`, both coordinates reduced to the grid. -/
def Grid.toggle (g : Grid) (cx cy : Nat) : Grid :=
  let column := g[cx % 64]'(Nat.mod_lt _ (by decide))
  g.set (cx % 64) (column.set (cy % 32) (!(Grid.get g cx cy)) (Nat.mod_lt _ (by decide))) (Nat.mod_lt _ (by decide))

/-- The grid with every cell off (R130). -/
def Grid.off : Grid := Vector.replicate 64 (Vector.replicate 32 false)

/-- What a draw carries along: the grid and whether a collision has happened (R131). -/
structure DrawAcc where
  pix : Grid
  hit : Bool
  deriving DecidableEq, Repr

/-- One sprite bit, col 0 being the most significant: a set bit toggles its cell and collides with a cell that was on;
a clear bit does nothing (R131). -/
def drawBit (vx vy b : Byte) (row : Nat) (acc : DrawAcc) (col : Nat) : DrawAcc :=
  if b.getLsbD (7 - col) then
    { pix := acc.pix.toggle (vx.toNat + col) (vy.toNat + row)
      hit := acc.hit || acc.pix.get (vx.toNat + col) (vy.toNat + row) }
  else acc

/-- One sprite row: columns 0..7 ascending (R131). -/
def drawRow (vx vy b : Byte) (row : Nat) (acc : DrawAcc) : DrawAcc :=
  (List.range 8).foldl (drawBit vx vy b row) acc

/-- Sprite rows 0..n-1 ascending, one byte of M for each row from I on (R131). -/
def State.drawRows (s : State) (vx vy : Byte) (n : Nat) (acc : DrawAcc) : DrawAcc :=
  (List.range n).foldl (fun acc row => drawRow vx vy (s.readMem (s.dataAddr row)) row acc) acc

/-- The set S of R132: the cells on which a set bit of an n-row sprite at (vx, vy) lands. -/
def State.InSprite (s : State) (vx vy : Byte) (n cx cy : Nat) : Prop :=
  ∃ row col, row < n ∧ col < 8 ∧ (s.readMem (s.dataAddr row)).getLsbD (7 - col) = true ∧
    cx = (vx.toNat + col) % 64 ∧ cy = (vy.toNat + row) % 32

/-- `CLS` (R130). -/
def execCls (s : State) : Result := .next ((s.setPix Grid.off).setDirty true)

/-- `DRW Vx, Vy, n` (R131): Vx, Vy and I are sampled before VF is written (D17); VF and DIRTY are always written (D25). -/
def execDrw (x y n : Nib) (s : State) : Result :=
  let d := s.drawRows (s.getV x) (s.getV y) n.toNat ⟨s.pix, false⟩
  .next (((s.setFlag d.hit).setPix d.pix).setDirty true)

end Sys2Proof.Machine
end

