-- ==== Sys2Proof/Machine/IndexMemory.lean ====
section
/-! DEFINITION. The index register and memory transfer (spec/43_index_memory.md). No access changes I (D16) and none can fault. -/

namespace Sys2Proof.Machine

/-- `LD I, nnn` (R120). -/
def execLdI (nnn : Addr12) (s : State) : Result := .next (s.setI (zext12 nnn))

/-- `ADD I, Vx` (R121): a 16-bit add, no flag (D15). -/
def execAddI (x : Nib) (s : State) : Result := .next (s.setI (s.i + zext8 (s.getV x)))

/-- `LD I, F(Vx)` (R122): no nibble mask (D12). -/
def execLdIF (x : Nib) (s : State) : Result := .next (s.setI (glyphAddr (s.getV x)))

/-- `BCD Vx` (R123): three bytes from I, hundreds first. -/
def execBcd (x : Nib) (s : State) : Result := .next (s.storeBytes (s.dataAddr 0) (bcdDigits (s.getV x)))

/-- `LD [I], Vx` (R124): registers 0 through x inclusive. -/
def execLdMemVx (x : Nib) (s : State) : Result := .next (State.storeRegs (x.toNat + 1) s)

/-- `LD Vx, [I]` (R125): registers 0 through x inclusive. -/
def execLdVxMem (x : Nib) (s : State) : Result := .next (State.loadRegs (x.toNat + 1) s)

end Sys2Proof.Machine
end

