-- ==== Sys2Proof/Machine/KeypadTimers.lean ====
section
/-! DEFINITION. The keypad and timer instructions (spec/45_keypad_timers.md). KEY is a level, read as the host last wrote it. -/

namespace Sys2Proof.Machine

/-- `SKP Vx` (R140): the key is the value of Vx modulo 16 (D11). -/
def execSkp (x : Nib) (s : State) : Result := .next (s.skipIf (s.keyPressed (keyIndex (s.getV x))))

/-- `SKNP Vx` (R141). -/
def execSknp (x : Nib) (s : State) : Result := .next (s.skipIf (!s.keyPressed (keyIndex (s.getV x))))

/-- `LD Vx, DT` (R142): DT before this Step's tick. -/
def execLdVxDt (x : Nib) (s : State) : Result := .next (s.setV x s.dt)

/-- `LD Vx, K` (R143): with no key pressed pc goes back to pc0 and the next Step fetches this instruction again; else Vx
is the lowest pressed key (D9), with no wait for a release (D10). -/
def execLdVxK (x : Nib) (s : State) : Result :=
  match s.lowestKey with
  | none => .next (s.setPc s.pc0)
  | some k => .next (s.setV x (k.setWidth 8))

/-- `LD DT, Vx` (R144). -/
def execLdDtVx (x : Nib) (s : State) : Result := .next (s.setDt (s.getV x))

/-- `LD ST, Vx` (R145). -/
def execLdStVx (x : Nib) (s : State) : Result := .next (s.setSt (s.getV x))

end Sys2Proof.Machine
end

