-- ==== Sys2Proof/Machine/LoadAlu.lean ====
section
/-! DEFINITION. Register loads, the 8xy_ family and RND (spec/42_load_alu_random.md). Operands are read before any write (R112). -/

namespace Sys2Proof.Machine

/-- `LD Vx, nn` (R100). -/
def execLdImm (x : Nib) (nn : Byte) (s : State) : Result := .next (s.setV x nn)

/-- `ADD Vx, nn` (R101): no flag, also on overflow (D15). -/
def execAddImm (x : Nib) (nn : Byte) (s : State) : Result := .next (s.setV x (s.getV x + nn))

/-- `LD Vx, Vy` (R102). -/
def execLdReg (x y : Nib) (s : State) : Result := .next (s.setV x (s.getV y))

/-- `OR Vx, Vy` (R103): VF is left unchanged (D15). -/
def execOr (x y : Nib) (s : State) : Result := .next (s.setV x (s.getV x ||| s.getV y))

/-- `AND Vx, Vy` (R104): VF is left unchanged (D15). -/
def execAnd (x y : Nib) (s : State) : Result := .next (s.setV x (s.getV x &&& s.getV y))

/-- `XOR Vx, Vy` (R105): VF is left unchanged (D15). -/
def execXor (x y : Nib) (s : State) : Result := .next (s.setV x (s.getV x ^^^ s.getV y))

/-- `ADD Vx, Vy` (R106). -/
def execAddReg (x y : Nib) (s : State) : Result :=
  .next (s.writeWithFlag x (s.getV x + s.getV y) (carry (s.getV x) (s.getV y)))

/-- `SUB Vx, Vy` (R107). -/
def execSub (x y : Nib) (s : State) : Result :=
  .next (s.writeWithFlag x (s.getV x - s.getV y) (notBorrow (s.getV x) (s.getV y)))

/-- `SHR Vx` (R108): Vx itself is shifted, y is ignored (D14). -/
def execShr (x _y : Nib) (s : State) : Result :=
  .next (s.writeWithFlag x (s.getV x >>> 1) (shrOut (s.getV x)))

/-- `SUBN Vx, Vy` (R109). -/
def execSubn (x y : Nib) (s : State) : Result :=
  .next (s.writeWithFlag x (s.getV y - s.getV x) (notBorrow (s.getV y) (s.getV x)))

/-- `SHL Vx` (R110): Vx itself is shifted, y is ignored (D14). -/
def execShl (x _y : Nib) (s : State) : Result :=
  .next (s.writeWithFlag x (s.getV x <<< 1) (shlOut (s.getV x)))

/-- `RND Vx, nn` (R111): the Step's draw under a mask. -/
def execRnd (x : Nib) (nn : Byte) (s : State) : Result := .next (s.setV x (s.rndByte &&& nn))

end Sys2Proof.Machine
end

