-- ==== Sys2Proof/Machine/Step.lean ====
section
/-! DEFINITION. One Step (spec/40_step_cycle.md R80): fetch, advance, execute, tick. -/

namespace Sys2Proof.Machine

/-- `Step` under a given TIMER_COUPLING (R80, R84). The random byte is this Step's draw, held in the state. A fault
answers no state: the Step has committed nothing (R82). -/
def stepWith (c : Config.TimerCoupling) (s : State) : Host.Outcome State Fault Refusal :=
  match exec (decode s.fetch) s.advance with
  | .next t => .next (t.endStep c)
  | .fault f => .fault f
  | .refused r => .refused r

/-- `Step` of this hardware (R80, R84: per_step). -/
def step (s : State) : Host.Outcome State Fault Refusal := stepWith timerCoupling s

/-- The state with a word of the opcode table stored where the next Step fetches (the two bytes at pc, R43). -/
def State.withFetchWord (s : State) (nbits w : Nat) : State := s.placeWord (tableWord nbits w)

end Sys2Proof.Machine
end

