-- ==== Sys2Proof/Laws/Decode.lean ====
section
/-! SUPPORT. The fields of an encoded word, and a word put together again from its fields. -/

namespace Sys2Proof

/-- Concatenation in numbers. -/
theorem toNat_append {w v : Nat} (a : BitVec w) (b : BitVec v) : (a ++ b).toNat = a.toNat * 2 ^ v + b.toNat := by
  rw [BitVec.toNat_append, ← Nat.shiftLeft_add_eq_or_of_lt b.isLt, Nat.shiftLeft_eq]

theorem toNat_wordOfBytes (hi lo : Byte) : (wordOfBytes hi lo).toNat = hi.toNat * 256 + lo.toNat := by
  unfold wordOfBytes
  rw [toNat_append]
  omega

theorem toNat_encNNN (t : Nib) (nnn : Addr12) : (encNNN t nnn).toNat = t.toNat * 4096 + nnn.toNat := by
  unfold encNNN
  rw [toNat_append]
  omega

theorem toNat_encXNN (t x : Nib) (nn : Byte) : (encXNN t x nn).toNat = t.toNat * 4096 + x.toNat * 256 + nn.toNat := by
  unfold encXNN
  rw [toNat_append, toNat_append]
  omega

theorem toNat_encXYN (t x y n : Nib) :
    (encXYN t x y n).toNat = t.toNat * 4096 + x.toNat * 256 + y.toNat * 16 + n.toNat := by
  unfold encXYN
  rw [toNat_append, toNat_append, toNat_append]
  omega

theorem toNat_fieldT (w : Word) : (fieldT w).toNat = w.toNat / 4096 := by
  have := w.isLt
  simp only [fieldT, BitVec.extractLsb'_toNat, Nat.shiftRight_eq_div_pow]
  omega

theorem toNat_fieldX (w : Word) : (fieldX w).toNat = w.toNat / 256 % 16 := by
  simp only [fieldX, BitVec.extractLsb'_toNat, Nat.shiftRight_eq_div_pow]

theorem toNat_fieldY (w : Word) : (fieldY w).toNat = w.toNat / 16 % 16 := by
  simp only [fieldY, BitVec.extractLsb'_toNat, Nat.shiftRight_eq_div_pow]

theorem toNat_fieldN (w : Word) : (fieldN w).toNat = w.toNat % 16 := by
  simp only [fieldN, BitVec.extractLsb'_toNat, Nat.shiftRight_eq_div_pow]
  omega

theorem toNat_fieldNN (w : Word) : (fieldNN w).toNat = w.toNat % 256 := by
  simp only [fieldNN, BitVec.extractLsb'_toNat, Nat.shiftRight_eq_div_pow]
  omega

theorem toNat_fieldNNN (w : Word) : (fieldNNN w).toNat = w.toNat % 4096 := by
  simp only [fieldNNN, BitVec.extractLsb'_toNat, Nat.shiftRight_eq_div_pow]
  omega

theorem toNat_wordHi (w : Word) : (wordHi w).toNat = w.toNat / 256 := by
  have := w.isLt
  simp only [wordHi, BitVec.extractLsb'_toNat, Nat.shiftRight_eq_div_pow]
  omega

theorem toNat_wordLo (w : Word) : (wordLo w).toNat = w.toNat % 256 := by
  simp only [wordLo, BitVec.extractLsb'_toNat, Nat.shiftRight_eq_div_pow]
  omega

/-! ### Fields of a word put together -/

@[simp] theorem fieldT_encNNN (t : Nib) (nnn : Addr12) : fieldT (encNNN t nnn) = t := by
  apply BitVec.eq_of_toNat_eq
  have := t.isLt
  have := nnn.isLt
  rw [toNat_fieldT, toNat_encNNN]
  omega

@[simp] theorem fieldNNN_encNNN (t : Nib) (nnn : Addr12) : fieldNNN (encNNN t nnn) = nnn := by
  apply BitVec.eq_of_toNat_eq
  have := nnn.isLt
  rw [toNat_fieldNNN, toNat_encNNN]
  omega

@[simp] theorem fieldT_encXNN (t x : Nib) (nn : Byte) : fieldT (encXNN t x nn) = t := by
  apply BitVec.eq_of_toNat_eq
  have := t.isLt
  have := x.isLt
  have := nn.isLt
  rw [toNat_fieldT, toNat_encXNN]
  omega

@[simp] theorem fieldX_encXNN (t x : Nib) (nn : Byte) : fieldX (encXNN t x nn) = x := by
  apply BitVec.eq_of_toNat_eq
  have := x.isLt
  have := nn.isLt
  rw [toNat_fieldX, toNat_encXNN]
  omega

@[simp] theorem fieldNN_encXNN (t x : Nib) (nn : Byte) : fieldNN (encXNN t x nn) = nn := by
  apply BitVec.eq_of_toNat_eq
  have := nn.isLt
  rw [toNat_fieldNN, toNat_encXNN]
  omega

@[simp] theorem fieldT_encXYN (t x y n : Nib) : fieldT (encXYN t x y n) = t := by
  apply BitVec.eq_of_toNat_eq
  have := t.isLt
  have := x.isLt
  have := y.isLt
  have := n.isLt
  rw [toNat_fieldT, toNat_encXYN]
  omega

@[simp] theorem fieldX_encXYN (t x y n : Nib) : fieldX (encXYN t x y n) = x := by
  apply BitVec.eq_of_toNat_eq
  have := x.isLt
  have := y.isLt
  have := n.isLt
  rw [toNat_fieldX, toNat_encXYN]
  omega

@[simp] theorem fieldY_encXYN (t x y n : Nib) : fieldY (encXYN t x y n) = y := by
  apply BitVec.eq_of_toNat_eq
  have := y.isLt
  have := n.isLt
  rw [toNat_fieldY, toNat_encXYN]
  omega

@[simp] theorem fieldN_encXYN (t x y n : Nib) : fieldN (encXYN t x y n) = n := by
  apply BitVec.eq_of_toNat_eq
  have := n.isLt
  rw [toNat_fieldN, toNat_encXYN]
  omega

/-! ### A word put together from its own fields -/

@[simp] theorem encNNN_fields (w : Word) : encNNN (fieldT w) (fieldNNN w) = w := by
  apply BitVec.eq_of_toNat_eq
  rw [toNat_encNNN, toNat_fieldT, toNat_fieldNNN]
  omega

@[simp] theorem encXNN_fields (w : Word) : encXNN (fieldT w) (fieldX w) (fieldNN w) = w := by
  apply BitVec.eq_of_toNat_eq
  rw [toNat_encXNN, toNat_fieldT, toNat_fieldX, toNat_fieldNN]
  omega

@[simp] theorem encXYN_fields (w : Word) : encXYN (fieldT w) (fieldX w) (fieldY w) (fieldN w) = w := by
  apply BitVec.eq_of_toNat_eq
  rw [toNat_encXYN, toNat_fieldT, toNat_fieldX, toNat_fieldY, toNat_fieldN]
  omega

@[simp] theorem wordOfBytes_bytes (w : Word) : wordOfBytes (wordHi w) (wordLo w) = w := by
  apply BitVec.eq_of_toNat_eq
  rw [toNat_wordOfBytes, toNat_wordHi, toNat_wordLo]
  omega

/-- Decoding the two bytes of a word decodes the word. -/
@[simp] theorem decodeBytes_bytesOfWord (w : Word) (rest : List Byte) :
    decodeBytes (bytesOfWord w ++ rest) = .ok (decode w, rest) := by
  simp [bytesOfWord, decodeBytes]

/-- The host's word is the word itself while it fits in 16 bits. -/
theorem decodeTableWord_16 (w : Word) : decodeTableWord 16 w.toNat = some (decode w) := by
  have : tableWord 16 w.toNat = w := by
    apply BitVec.eq_of_toNat_eq
    simpa [tableWord] using w.isLt
  have h := decodeBytes_bytesOfWord w []
  rw [List.append_nil] at h
  simp [decodeTableWord, this, h]

/-! ### Masks of the opcode map (R65) in terms of fields -/

theorem getLsbD_encNNN (t : Nib) (nnn : Addr12) (i : Nat) :
    (encNNN t nnn).getLsbD i = if i < 12 then nnn.getLsbD i else t.getLsbD (i - 12) :=
  BitVec.getLsbD_append

theorem getLsbD_encXNN (t x : Nib) (nn : Byte) (i : Nat) :
    (encXNN t x nn).getLsbD i =
      if i < 8 then nn.getLsbD i else if i - 8 < 4 then x.getLsbD (i - 8) else t.getLsbD (i - 8 - 4) := by
  rw [← BitVec.getLsbD_append]
  exact BitVec.getLsbD_append

theorem getLsbD_encXYN (t x y n : Nib) (i : Nat) :
    (encXYN t x y n).getLsbD i =
      if i < 4 then n.getLsbD i else if i - 4 < 4 then y.getLsbD (i - 4)
      else if i - 4 - 4 < 4 then x.getLsbD (i - 4 - 4) else t.getLsbD (i - 4 - 4 - 4) := by
  rw [← BitVec.getLsbD_append, ← BitVec.getLsbD_append]
  exact BitVec.getLsbD_append

theorem and_F000 (w : Word) : w &&& 0xF000#16 = encNNN (fieldT w) 0#12 := by
  apply BitVec.eq_of_getLsbD_eq
  intro i hi
  rw [BitVec.getLsbD_and, getLsbD_encNNN]
  interval_cases i <;> simp [fieldT]

theorem and_F00F (w : Word) : w &&& 0xF00F#16 = encXYN (fieldT w) 0#4 0#4 (fieldN w) := by
  apply BitVec.eq_of_getLsbD_eq
  intro i hi
  rw [BitVec.getLsbD_and, getLsbD_encXYN]
  interval_cases i <;> simp [fieldT, fieldN]

theorem and_F0FF (w : Word) : w &&& 0xF0FF#16 = encXNN (fieldT w) 0#4 (fieldNN w) := by
  apply BitVec.eq_of_getLsbD_eq
  intro i hi
  rw [BitVec.getLsbD_and, getLsbD_encXNN]
  interval_cases i <;> simp [fieldT, fieldNN]

theorem and_FFFF (w : Word) : w &&& 0xFFFF#16 = w := by
  apply BitVec.eq_of_getLsbD_eq
  intro i hi
  interval_cases i <;> simp

end Sys2Proof
end

