-- ==== Sys2Proof/Laws/PerInstr.lean ====
section
/-! SUPPORT. Laws of every instruction as text, one lemma for each constructor. -/

namespace Sys2Proof.Laws.EncodedRow

/-- The word an instruction is encoded as selects the row of the opcode map that bears its name (R65): every fixed digit of the
pattern stands in the encoded word. -/
def Statement (i : Instr) : Prop :=
  ∀ r ∈ opcodeTable, r.mnemonic = i.mnemonic → r.selects (encode i) = true

/-- The row with a given name, read off the table. -/
theorem of_row (i : Instr) (value mask : Word)
    (hrow : ∀ r ∈ opcodeTable, r.mnemonic = i.mnemonic → r.value = value ∧ r.mask = mask)
    (h : encode i &&& mask = value) : Statement i := by
  intro r hr hm
  obtain ⟨hv, hk⟩ := hrow r hr hm
  rw [OpcodeRow.selects, hv, hk, h]
  exact beq_self_eq_true value

theorem cls : Statement (.cls) :=
  of_row _ 0x00E0#16 0xFFFF#16 (by simp [opcodeTable, opcodeRows0to7, opcodeRows8, opcodeRows9toE, opcodeRowsF, Instr.mnemonic])
    (by simp [encode, and_FFFF])

theorem ret : Statement (.ret) :=
  of_row _ 0x00EE#16 0xFFFF#16 (by simp [opcodeTable, opcodeRows0to7, opcodeRows8, opcodeRows9toE, opcodeRowsF, Instr.mnemonic])
    (by simp [encode, and_FFFF])

theorem jp (nnn : Addr12) : Statement (.jp nnn) :=
  of_row _ 0x1000#16 0xF000#16 (by simp [opcodeTable, opcodeRows0to7, opcodeRows8, opcodeRows9toE, opcodeRowsF, Instr.mnemonic])
    (by simp [encode, and_F000]; rfl)

theorem call (nnn : Addr12) : Statement (.call nnn) :=
  of_row _ 0x2000#16 0xF000#16 (by simp [opcodeTable, opcodeRows0to7, opcodeRows8, opcodeRows9toE, opcodeRowsF, Instr.mnemonic])
    (by simp [encode, and_F000]; rfl)

theorem seImm (x : Nib) (nn : Byte) : Statement (.seImm x nn) :=
  of_row _ 0x3000#16 0xF000#16 (by simp [opcodeTable, opcodeRows0to7, opcodeRows8, opcodeRows9toE, opcodeRowsF, Instr.mnemonic])
    (by simp [encode, and_F000]; rfl)

theorem sneImm (x : Nib) (nn : Byte) : Statement (.sneImm x nn) :=
  of_row _ 0x4000#16 0xF000#16 (by simp [opcodeTable, opcodeRows0to7, opcodeRows8, opcodeRows9toE, opcodeRowsF, Instr.mnemonic])
    (by simp [encode, and_F000]; rfl)

theorem seReg (x : Nib) (y : Nib) : Statement (.seReg x y) :=
  of_row _ 0x5000#16 0xF00F#16 (by simp [opcodeTable, opcodeRows0to7, opcodeRows8, opcodeRows9toE, opcodeRowsF, Instr.mnemonic])
    (by simp [encode, and_F00F]; rfl)

theorem ldImm (x : Nib) (nn : Byte) : Statement (.ldImm x nn) :=
  of_row _ 0x6000#16 0xF000#16 (by simp [opcodeTable, opcodeRows0to7, opcodeRows8, opcodeRows9toE, opcodeRowsF, Instr.mnemonic])
    (by simp [encode, and_F000]; rfl)

theorem addImm (x : Nib) (nn : Byte) : Statement (.addImm x nn) :=
  of_row _ 0x7000#16 0xF000#16 (by simp [opcodeTable, opcodeRows0to7, opcodeRows8, opcodeRows9toE, opcodeRowsF, Instr.mnemonic])
    (by simp [encode, and_F000]; rfl)

theorem ldReg (x : Nib) (y : Nib) : Statement (.ldReg x y) :=
  of_row _ 0x8000#16 0xF00F#16 (by simp [opcodeTable, opcodeRows0to7, opcodeRows8, opcodeRows9toE, opcodeRowsF, Instr.mnemonic])
    (by simp [encode, and_F00F]; rfl)

theorem orReg (x : Nib) (y : Nib) : Statement (.orReg x y) :=
  of_row _ 0x8001#16 0xF00F#16 (by simp [opcodeTable, opcodeRows0to7, opcodeRows8, opcodeRows9toE, opcodeRowsF, Instr.mnemonic])
    (by simp [encode, and_F00F]; rfl)

theorem andReg (x : Nib) (y : Nib) : Statement (.andReg x y) :=
  of_row _ 0x8002#16 0xF00F#16 (by simp [opcodeTable, opcodeRows0to7, opcodeRows8, opcodeRows9toE, opcodeRowsF, Instr.mnemonic])
    (by simp [encode, and_F00F]; rfl)

theorem xorReg (x : Nib) (y : Nib) : Statement (.xorReg x y) :=
  of_row _ 0x8003#16 0xF00F#16 (by simp [opcodeTable, opcodeRows0to7, opcodeRows8, opcodeRows9toE, opcodeRowsF, Instr.mnemonic])
    (by simp [encode, and_F00F]; rfl)

theorem addReg (x : Nib) (y : Nib) : Statement (.addReg x y) :=
  of_row _ 0x8004#16 0xF00F#16 (by simp [opcodeTable, opcodeRows0to7, opcodeRows8, opcodeRows9toE, opcodeRowsF, Instr.mnemonic])
    (by simp [encode, and_F00F]; rfl)

theorem sub (x : Nib) (y : Nib) : Statement (.sub x y) :=
  of_row _ 0x8005#16 0xF00F#16 (by simp [opcodeTable, opcodeRows0to7, opcodeRows8, opcodeRows9toE, opcodeRowsF, Instr.mnemonic])
    (by simp [encode, and_F00F]; rfl)

theorem shr (x : Nib) (y : Nib) : Statement (.shr x y) :=
  of_row _ 0x8006#16 0xF00F#16 (by simp [opcodeTable, opcodeRows0to7, opcodeRows8, opcodeRows9toE, opcodeRowsF, Instr.mnemonic])
    (by simp [encode, and_F00F]; rfl)

theorem subn (x : Nib) (y : Nib) : Statement (.subn x y) :=
  of_row _ 0x8007#16 0xF00F#16 (by simp [opcodeTable, opcodeRows0to7, opcodeRows8, opcodeRows9toE, opcodeRowsF, Instr.mnemonic])
    (by simp [encode, and_F00F]; rfl)

theorem shl (x : Nib) (y : Nib) : Statement (.shl x y) :=
  of_row _ 0x800E#16 0xF00F#16 (by simp [opcodeTable, opcodeRows0to7, opcodeRows8, opcodeRows9toE, opcodeRowsF, Instr.mnemonic])
    (by simp [encode, and_F00F]; rfl)

theorem sneReg (x : Nib) (y : Nib) : Statement (.sneReg x y) :=
  of_row _ 0x9000#16 0xF00F#16 (by simp [opcodeTable, opcodeRows0to7, opcodeRows8, opcodeRows9toE, opcodeRowsF, Instr.mnemonic])
    (by simp [encode, and_F00F]; rfl)

theorem ldI (nnn : Addr12) : Statement (.ldI nnn) :=
  of_row _ 0xA000#16 0xF000#16 (by simp [opcodeTable, opcodeRows0to7, opcodeRows8, opcodeRows9toE, opcodeRowsF, Instr.mnemonic])
    (by simp [encode, and_F000]; rfl)

theorem jpV0 (nnn : Addr12) : Statement (.jpV0 nnn) :=
  of_row _ 0xB000#16 0xF000#16 (by simp [opcodeTable, opcodeRows0to7, opcodeRows8, opcodeRows9toE, opcodeRowsF, Instr.mnemonic])
    (by simp [encode, and_F000]; rfl)

theorem rnd (x : Nib) (nn : Byte) : Statement (.rnd x nn) :=
  of_row _ 0xC000#16 0xF000#16 (by simp [opcodeTable, opcodeRows0to7, opcodeRows8, opcodeRows9toE, opcodeRowsF, Instr.mnemonic])
    (by simp [encode, and_F000]; rfl)

theorem drw (x : Nib) (y : Nib) (n : Nib) : Statement (.drw x y n) :=
  of_row _ 0xD000#16 0xF000#16 (by simp [opcodeTable, opcodeRows0to7, opcodeRows8, opcodeRows9toE, opcodeRowsF, Instr.mnemonic])
    (by simp [encode, and_F000]; rfl)

theorem skp (x : Nib) : Statement (.skp x) :=
  of_row _ 0xE09E#16 0xF0FF#16 (by simp [opcodeTable, opcodeRows0to7, opcodeRows8, opcodeRows9toE, opcodeRowsF, Instr.mnemonic])
    (by simp [encode, and_F0FF]; rfl)

theorem sknp (x : Nib) : Statement (.sknp x) :=
  of_row _ 0xE0A1#16 0xF0FF#16 (by simp [opcodeTable, opcodeRows0to7, opcodeRows8, opcodeRows9toE, opcodeRowsF, Instr.mnemonic])
    (by simp [encode, and_F0FF]; rfl)

theorem ldVxDt (x : Nib) : Statement (.ldVxDt x) :=
  of_row _ 0xF007#16 0xF0FF#16 (by simp [opcodeTable, opcodeRows0to7, opcodeRows8, opcodeRows9toE, opcodeRowsF, Instr.mnemonic])
    (by simp [encode, and_F0FF]; rfl)

theorem ldVxK (x : Nib) : Statement (.ldVxK x) :=
  of_row _ 0xF00A#16 0xF0FF#16 (by simp [opcodeTable, opcodeRows0to7, opcodeRows8, opcodeRows9toE, opcodeRowsF, Instr.mnemonic])
    (by simp [encode, and_F0FF]; rfl)

theorem ldDtVx (x : Nib) : Statement (.ldDtVx x) :=
  of_row _ 0xF015#16 0xF0FF#16 (by simp [opcodeTable, opcodeRows0to7, opcodeRows8, opcodeRows9toE, opcodeRowsF, Instr.mnemonic])
    (by simp [encode, and_F0FF]; rfl)

theorem ldStVx (x : Nib) : Statement (.ldStVx x) :=
  of_row _ 0xF018#16 0xF0FF#16 (by simp [opcodeTable, opcodeRows0to7, opcodeRows8, opcodeRows9toE, opcodeRowsF, Instr.mnemonic])
    (by simp [encode, and_F0FF]; rfl)

theorem addI (x : Nib) : Statement (.addI x) :=
  of_row _ 0xF01E#16 0xF0FF#16 (by simp [opcodeTable, opcodeRows0to7, opcodeRows8, opcodeRows9toE, opcodeRowsF, Instr.mnemonic])
    (by simp [encode, and_F0FF]; rfl)

theorem ldIF (x : Nib) : Statement (.ldIF x) :=
  of_row _ 0xF029#16 0xF0FF#16 (by simp [opcodeTable, opcodeRows0to7, opcodeRows8, opcodeRows9toE, opcodeRowsF, Instr.mnemonic])
    (by simp [encode, and_F0FF]; rfl)

theorem bcd (x : Nib) : Statement (.bcd x) :=
  of_row _ 0xF033#16 0xF0FF#16 (by simp [opcodeTable, opcodeRows0to7, opcodeRows8, opcodeRows9toE, opcodeRowsF, Instr.mnemonic])
    (by simp [encode, and_F0FF]; rfl)

theorem ldMemVx (x : Nib) : Statement (.ldMemVx x) :=
  of_row _ 0xF055#16 0xF0FF#16 (by simp [opcodeTable, opcodeRows0to7, opcodeRows8, opcodeRows9toE, opcodeRowsF, Instr.mnemonic])
    (by simp [encode, and_F0FF]; rfl)

theorem ldVxMem (x : Nib) : Statement (.ldVxMem x) :=
  of_row _ 0xF065#16 0xF0FF#16 (by simp [opcodeTable, opcodeRows0to7, opcodeRows8, opcodeRows9toE, opcodeRowsF, Instr.mnemonic])
    (by simp [encode, and_F0FF]; rfl)

theorem unknown (op : Word) : Statement (.unknown op) := by
  intro r hr hm
  revert r
  change ∀ r ∈ opcodeTable, r.mnemonic = "UNKNOWN" → _
  simp [opcodeTable, opcodeRows0to7, opcodeRows8, opcodeRows9toE, opcodeRowsF]

end Sys2Proof.Laws.EncodedRow
end

