-- ==== Sys2Proof/Machine/HostOps.lean ====
section
/-! DEFINITION. The host operations (spec/60_exceptions.md R160 to R165, spec/70_reset_and_hazards.md R180, R184): atomic, between Steps,
in any interleaving with Steps (R53, R165). -/

namespace Sys2Proof.Machine

/-- The eight host operations (D1). -/
inductive HostOp where
  | reset
  | loadProgram (bytes : List Byte)
  | step
  | setKey (index : Nat) (pressed : Bool)
  | readPixel (cx cy : Nat)
  | consumeDirty
  | soundActive
  | tickTimers
  deriving DecidableEq, Repr

/-- What a host operation returns beside its status. -/
inductive HostValue where
  | nothing
  | bool (b : Bool)
  deriving DecidableEq, Repr

/-- What a host operation answers. -/
abbrev HostResult := Host.Outcome (State × HostValue) Fault Refusal

/-- `Reset()` (R180): every piece of state but KEY (D7); the model's draws are not used twice. -/
def hostReset (s : State) : HostResult := .next ((State.resetWith s.key).setDraws s.draws, .nothing)

/-- `LoadProgram(bytes)` (R184): all of the image or nothing. -/
def hostLoadProgram (bytes : List Byte) (s : State) : HostResult :=
  if bytes.length > Config.maxProgramBytes then .fault (.loadError bytes.length)
  else .next (s.storeBytes Config.programBase bytes, .nothing)

/-- `Step` as a host operation (R80), under a given coupling. -/
def hostStep (c : Config.TimerCoupling) (s : State) : HostResult :=
  match stepWith c s with
  | .next t => .next (t, .nothing)
  | .fault f => .fault f
  | .refused r => .refused r

/-- `SetKey(index, pressed)` (R160). -/
def hostSetKey (index : Nat) (pressed : Bool) (s : State) : HostResult :=
  if h : index < 16 then .next (s.setKey (s.key.set index pressed h), .nothing)
  else .refused (.setKeyOutOfRange index)

/-- `ReadPixel(cx, cy)` (R161). -/
def hostReadPixel (cx cy : Nat) (s : State) : HostResult :=
  if cx < 64 ∧ cy < 32 then .next (s, .bool (s.pix.get cx cy)) else .refused (.readPixelOutOfRange cx cy)

/-- `ConsumeDirty()` (R162). -/
def hostConsumeDirty (s : State) : HostResult := .next (s.setDirty false, .bool s.dirty)

/-- `SoundActive() = (ST != 0)` (R163). -/
def hostSoundActive (s : State) : HostResult := .next (s, .bool (s.st != 0x00))

/-- `TickTimers()` (R164): a host operation only when TIMER_COUPLING = external. -/
def hostTickTimers (c : Config.TimerCoupling) (s : State) : HostResult :=
  match c with
  | .external => .next (s.tickTimers, .nothing)
  | .perStep => .refused .noHostTick

/-- One host operation under a given coupling. -/
def hostOpWith (c : Config.TimerCoupling) (op : HostOp) (s : State) : HostResult :=
  match op with
  | .reset => hostReset s
  | .loadProgram bytes => hostLoadProgram bytes s
  | .step => hostStep c s
  | .setKey index pressed => hostSetKey index pressed s
  | .readPixel cx cy => hostReadPixel cx cy s
  | .consumeDirty => hostConsumeDirty s
  | .soundActive => hostSoundActive s
  | .tickTimers => hostTickTimers c s

/-- One host operation of this hardware. -/
def hostOp (op : HostOp) (s : State) : HostResult := hostOpWith timerCoupling op s

/-- The state after a host operation, whatever its status. A fault leaves the state as it was (R82, R153, R154; DEDUCED,
notes/assumptions/5.md), so the operation can be invoked again (R156). DESIGN CHOICE: so does a refusal, where the spec only says
that a model refuses the operation (D21; notes/assumptions/33.md). -/
def hostAfter (op : HostOp) (s : State) : State :=
  match hostOp op s with
  | .next (t, _) => t
  | .fault _ => s
  | .refused _ => s

/-- A sequence of host operations (R165), each on the state the one before it left. -/
def hostRun (ops : List HostOp) (s : State) : State := ops.foldl (fun s op => hostAfter op s) s

end Sys2Proof.Machine
end

