-- ==== Sys2Proof/Safety.lean ====
section
/-! DEFINITION. What counts as a sound state and a safe run, and the words in which statements say what an instruction leaves
unchanged. -/

namespace Sys2Proof.Machine

/-- The invariant of the model: memory keeps its canonical form. The other ranges the spec gives (SP in 0..16, one bit for
a cell, a key and DIRTY) hold by the types. -/
def State.Inv (s : State) : Prop := s.mem.wf = true

/-- A safe run: k Steps that all return OK (R86). -/
def SafeRun (k : Nat) (s : State) : Prop := ∃ t, Sys2Proof.core.run k s = .next t

/-- The pieces of state, by name. -/
inductive Piece where
  | v | i | pc | stack | sp | dt | st | pix | key | dirty | mem | draws
  deriving DecidableEq, Repr

/-- Two states agree on a piece. Memory agrees when every byte reads the same. -/
def Piece.Same (p : Piece) (s t : State) : Prop :=
  match p with
  | .v => ∀ z, t.getV z = s.getV z
  | .i => t.i = s.i
  | .pc => t.pc = s.pc
  | .stack => t.stack = s.stack
  | .sp => t.sp = s.sp
  | .dt => t.dt = s.dt
  | .st => t.st = s.st
  | .pix => t.pix = s.pix
  | .key => t.key = s.key
  | .dirty => t.dirty = s.dirty
  | .mem => ∀ a, t.readMem a = s.readMem a
  | .draws => t.draws = s.draws

/-- The frame: from s to t nothing changes but the named pieces. -/
def OnlyChanges (changed : List Piece) (s t : State) : Prop := ∀ p, p ∉ changed → p.Same s t

/-- Among the V registers nothing changes but the named ones. -/
def OnlyWritesV (written : List Nib) (s t : State) : Prop := ∀ z, z ∉ written → t.getV z = s.getV z

/-- An instruction has its effect: exec answers a next state, and P says what it holds. -/
def Completes (i : Instr) (s : State) (P : State → Prop) : Prop := ∃ t, exec i s = .next t ∧ P t

/-- A Step returns OK, and P says what its state holds. -/
def StepOk (s : State) (P : State → Prop) : Prop := ∃ t, step s = .next t ∧ P t

/-- A change of the state an outcome holds, if it holds one. -/
def mapNext (f : State → State) : Result → Result
  | .next t => .next (f t)
  | .fault e => .fault e
  | .refused r => .refused r

/-- The condition of a skip instruction (R93 to R96, R140, R141); `none` for every other instruction. -/
def skipTaken (i : Instr) (s : State) : Option Bool :=
  match i with
  | .seImm x nn => some (decide (s.getV x = nn))
  | .sneImm x nn => some (decide (s.getV x ≠ nn))
  | .seReg x y => some (decide (s.getV x = s.getV y))
  | .sneReg x y => some (decide (s.getV x ≠ s.getV y))
  | .skp x => some (s.keyPressed (keyIndex (s.getV x)))
  | .sknp x => some (!s.keyPressed (keyIndex (s.getV x)))
  | _ => none

/-- The address a control transfer loads into pc (R13 (c)); `none` for every other instruction, and for a RET with an empty
stack. -/
def jumpTarget (i : Instr) (s : State) : Option Word :=
  match i with
  | .jp nnn => some (zext12 nnn)
  | .call nnn => some (zext12 nnn)
  | .jpV0 nnn => some (zext12 nnn + zext8 (s.getV 0x0#4))
  | .ret => if s.sp.val = 0 then none else s.stack[s.sp.val - 1]?
  | _ => none

/-- The six instructions that write VF as a flag (R11). -/
def flagWriter (i : Instr) : Bool :=
  match i with
  | .addReg _ _ | .sub _ _ | .shr _ _ | .subn _ _ | .shl _ _ | .drw _ _ _ => true
  | _ => false

/-- V[z] is named as a data destination (the table of R25). -/
def writesData (i : Instr) (z : Nib) : Bool :=
  match i with
  | .ldImm x _ | .addImm x _ | .rnd x _ | .ldVxDt x | .ldVxK x => decide (z = x)
  | .ldReg x _ | .orReg x _ | .andReg x _ | .xorReg x _ | .addReg x _ | .sub x _ | .shr x _ | .subn x _ | .shl x _ =>
    decide (z = x)
  | .ldVxMem x => decide (z ≤ x)
  | _ => false

end Sys2Proof.Machine
end

