-- ==== Sys2Proof/Certificates/Slice0/Obligations.lean ====
section
/-! DEFINITION. The statements for the provers. A statement about an instruction is about `exec`, on a state whose pc is already
advanced (spec/40_step_cycle.md R81), unless it names `step`, `hostOp` or `hostRun`. Where a clause rests on a decision of the
spec (spec/92_eei_decisions.md D1 to D25) or on the model's own choice, the docstring says so. -/

open Sys2Proof Sys2Proof.Machine

/-! ### Reset -/

/-- R24, R180: the state after Reset, for every vector of keys. The values other than pc = 0x200 and the presence of the font
are the spec's decisions D6 and D8; that `State.reset` has no key pressed, and that the draws start at 0, are the model's
(notes/assumptions/1.md, 2.md). -/
def Obligations.ResetLeavesTheTabulatedState : Prop :=
  (∀ keys : Vector Bool 16,
    let s := State.resetWith keys
    s.pc = 0x0200 ∧ (∀ x, s.getV x = 0x00) ∧ s.i = 0x0000 ∧ (∀ k, k < 16 → s.stack[k]? = some 0x0000) ∧ s.sp.val = 0 ∧
    s.dt = 0x00 ∧ s.st = 0x00 ∧ (∀ cx cy, s.pix.get cx cy = false) ∧ s.dirty = false ∧ s.key = keys ∧
    (∀ a, a < 80 → fontTable[a]? = some (s.readMem a)) ∧ (∀ a, 80 ≤ a → a < 4096 → s.readMem a = 0x00)) ∧
  State.reset = State.resetWith (Vector.replicate 16 false)

/-! ### Encoding -/

/-- R60, R62, R65: every well-formed instruction, with every operand, is read back from its two bytes. That the shifts have their
ignored y as an operand, and an unknown opcode its word, is the model's choice (DESIGN CHOICE, notes/assumptions/16.md, 15.md). -/
def Obligations.DecodingAnEncodedInstructionGivesItBack : Prop :=
  ∀ i : Instr, i.wf = true →
    decode (encode i) = i ∧ ∀ rest, decodeBytes (encodeBytes i ++ rest) = .ok (i, rest)

/-- R64, R68: every word is some well-formed instruction's, and its encoding gives the word back: no bit is dropped. For 8xy6 and
8xyE with y other than 0 this holds because the model's instruction keeps the y field the shift ignores (where R69 has the
text of a shift assemble with y = 0), and for an unknown opcode because it keeps the whole word: the model's choice (DESIGN
CHOICE, notes/assumptions/16.md, 15.md), not a rule of the spec. -/
def Obligations.EncodingADecodedWordGivesItBack : Prop :=
  ∀ w : Word, (decode w).wf = true ∧ encode (decode w) = w

/-- R64, R65, R67 (D13): a word that selects a row of the opcode map decodes to that row's instruction, it selects at most one
row, and the words that select none are exactly the unknown opcodes. -/
def Obligations.OpcodeMapSelectsTheInstruction : Prop :=
  ∀ w : Word,
    (∀ r ∈ opcodeTable, r.selects w = true → (decode w).mnemonic = r.mnemonic) ∧
    (∀ r ∈ opcodeTable, ∀ q ∈ opcodeTable, r.selects w = true → q.selects w = true → r = q) ∧
    ((∀ r ∈ opcodeTable, r.selects w = false) ↔ decode w = .unknown w)

/-- R61: the fields of an opcode, by the masks and shifts of the rule, how they overlap, and that a decoded instruction holds
them. -/
def Obligations.FieldsAreTheMaskedBits : Prop :=
  ∀ op : Word,
    (fieldT op).setWidth 16 = op >>> 12 ∧ (fieldX op).setWidth 16 = (op &&& 0x0F00) >>> 8 ∧
    (fieldY op).setWidth 16 = (op &&& 0x00F0) >>> 4 ∧ (fieldN op).setWidth 16 = op &&& 0x000F ∧
    (fieldNN op).setWidth 16 = op &&& 0x00FF ∧ (fieldNNN op).setWidth 16 = op &&& 0x0FFF ∧
    fieldNN op = fieldY op ++ fieldN op ∧ fieldNNN op = (fieldX op ++ fieldY op) ++ fieldN op ∧
    (fieldT op = 0x1#4 → decode op = .jp (fieldNNN op)) ∧
    (fieldT op = 0x3#4 → decode op = .seImm (fieldX op) (fieldNN op)) ∧
    (fieldT op = 0xD#4 → decode op = .drw (fieldX op) (fieldY op) (fieldN op))

/-- Words written out from the encodings of R65 stand for their instructions: one word at least for each of the sixteen families,
the values of t (R61), and two near misses, which are unknown opcodes (decision D13). -/
def Obligations.SampleWordsDecodeAsTheTableSays : Prop :=
  decode 0x00E0 = .cls ∧ decode 0x00EE = .ret ∧ decode 0x1234 = .jp 0x234 ∧ decode 0x2ABC = .call 0xABC ∧
  decode 0x332A = .seImm 0x3 0x2A ∧ decode 0x4F80 = .sneImm 0xF 0x80 ∧ decode 0x5120 = .seReg 0x1 0x2 ∧
  decode 0x6A7F = .ldImm 0xA 0x7F ∧ decode 0x72FF = .addImm 0x2 0xFF ∧ decode 0x8F16 = .shr 0xF 0x1 ∧
  decode 0x9AB0 = .sneReg 0xA 0xB ∧ decode 0xA2F0 = .ldI 0x2F0 ∧ decode 0xBFFF = .jpV0 0xFFF ∧
  decode 0xC30F = .rnd 0x3 0x0F ∧
  decode 0xD12A = .drw 0x1 0x2 0xA ∧ decode 0xE5A1 = .sknp 0x5 ∧ decode 0xF30A = .ldVxK 0x3 ∧
  decode 0xF255 = .ldMemVx 0x2 ∧ decode 0x5121 = .unknown 0x5121 ∧ decode 0x01E0 = .unknown 0x01E0

/-- R68 (D13 for which words): the unknown words are those its table lists, family by family; the unknown opcode does nothing;
a Step on one advances pc by 2, ticks the timers (D2, D3) and does nothing else. -/
def Obligations.UnknownOpcodeIsANoOperation : Prop :=
  (∀ w : Word, decode w = .unknown w ↔ isUnknownWord w = true) ∧
  (∀ op s, exec (.unknown op) s = .next s) ∧
  (∀ s : State, isUnknownWord s.fetch = true → StepOk s fun t =>
    t.pc = s.pc + 2 ∧ t.dt.toNat = s.dt.toNat - 1 ∧ t.st.toNat = s.st.toNat - 1 ∧
    OnlyChanges [.pc, .dt, .st, .draws] s t)

/-! ### The Step cycle -/

/-- R80: a Step fetches, advances pc by 2, executes what the two bytes at pc decode to, and ticks the timers when
TIMER_COUPLING = per_step (which this hardware's `step` takes, D2); a fault is returned and leaves the old state (as `hostAfter`
says by its definition, DEDUCED, notes/assumptions/5.md). The draw's index moves with every Step that returns OK
(notes/assumptions/1.md). -/
def Obligations.StepRunsTheDecodedInstruction : Prop :=
  ∀ (s : State) (i : Instr) (rest : List Byte),
    decodeBytes [s.readMem s.pc.toNat, s.readMem (s.pc.toNat + 1)] = .ok (i, rest) →
    i.wf = true ∧
    stepWith .perStep s = mapNext (fun t => t.tickTimers.setDraws (t.draws + 1)) (exec i (s.setPc (s.pc + 2))) ∧
    stepWith .external s = mapNext (fun t => t.setDraws (t.draws + 1)) (exec i (s.setPc (s.pc + 2))) ∧
    step s = stepWith .perStep s ∧
    (∀ f, step s = .fault f → hostOp .step s = .fault f ∧ hostAfter .step s = s)

/-- R83: TickTimers counts each timer down by one, not below zero, and touches nothing else. -/
def Obligations.TickTimersCountsBothDown : Prop :=
  ∀ s : State, s.tickTimers.dt.toNat = s.dt.toNat - 1 ∧ s.tickTimers.st.toNat = s.st.toNat - 1 ∧
    OnlyChanges [.dt, .st] s s.tickTimers

/-- R84, R186 (D2, D3): every Step that returns OK counts DT and ST down by one, not below zero, from what they were, or from
the value just written where the Step wrote one. -/
def Obligations.TimersCountEverySuccessfulStep : Prop :=
  ∀ s t, step s = .next t →
    ((∀ x, decode s.fetch ≠ .ldDtVx x) → t.dt.toNat = s.dt.toNat - 1) ∧
    (∀ x, decode s.fetch = .ldDtVx x → t.dt.toNat = (s.getV x).toNat - 1) ∧
    ((∀ x, decode s.fetch ≠ .ldStVx x) → t.st.toNat = s.st.toNat - 1) ∧
    (∀ x, decode s.fetch = .ldStVx x → t.st.toNat = (s.getV x).toNat - 1)

/-- R85 (D11 for the key a skip names): a taken skip leaves pc = pc0 + 4 and a not-taken one pc = pc0 + 2, and whatever word
is passed over has no effect. -/
def Obligations.SkipPassesOverOneWord : Prop :=
  ∀ (s : State) (b : Bool), skipTaken (decode s.fetch) s = some b → StepOk s fun t =>
    t.pc = s.pc + (if b then 4 else 2) ∧ OnlyChanges [.pc, .dt, .st, .draws] s t

/-- R151, R152: StackOverflow is returned exactly by CALL at SP = 16, StackUnderflow exactly by RET at SP = 0. Each carries the
address of the instruction (R150, the spec's decision D19; notes/assumptions/21.md), and a Step has no other outcome than these
and OK (R86; R154 for LoadError). -/
def Obligations.StepFaultsExactlyOnStackMisuse : Prop :=
  ∀ s : State,
    (∀ p, step s = .fault (.stackOverflow p) ↔ p = s.pc ∧ s.sp.val = 16 ∧ ∃ nnn, decode s.fetch = .call nnn) ∧
    (∀ p, step s = .fault (.stackUnderflow p) ↔ p = s.pc ∧ s.sp.val = 0 ∧ decode s.fetch = .ret) ∧
    (∀ n, step s ≠ .fault (.loadError n)) ∧ (∀ r, step s ≠ .refused r)

/-- R82, R153: a Step that returns a fault commits nothing, and only CALL and RET can raise one. That the state after the fault is
the old one holds by the definition of `hostAfter`, which is the model's deduction (DEDUCED, notes/assumptions/5.md). -/
def Obligations.FaultingStepCommitsNothing : Prop :=
  ∀ s f, hostOp .step s = .fault f →
    hostAfter .step s = s ∧ ((∃ nnn, decode s.fetch = .call nnn) ∨ decode s.fetch = .ret)

/-- R87 (d): after a Step that returns OK, pc is pc0 + 2; or pc0 + 4 after a taken skip; or pc0 after an Fx0A with no key
pressed; or the target of the jump, call or return. -/
def Obligations.ProgramCounterAfterAStep : Prop :=
  ∀ s t, step s = .next t →
    let i := decode s.fetch
    (t.pc = s.pc + 4 ∧ skipTaken i s = some true) ∨
    (t.pc = s.pc ∧ (∃ x, i = .ldVxK x) ∧ ∀ k, s.keyPressed k = false) ∨
    (jumpTarget i s = some t.pc) ∨
    (t.pc = s.pc + 2 ∧ skipTaken i s ≠ some true ∧ jumpTarget i s = none ∧
      ((∃ x, i = .ldVxK x) → ∃ k, s.keyPressed k = true))

/-- R87 (a), (b): only RND depends on the draw; every other instruction acts alike whatever the draws are. -/
def Obligations.OnlyRndDependsOnTheDraw : Prop :=
  ∀ (i : Instr) (s : State) (d : Nat), (∀ x nn, i ≠ .rnd x nn) →
    exec i (s.setDraws d) = mapNext (fun t => t.setDraws d) (exec i s)

/-- R25, as a law of the whole machine: which instructions may change PIX, DIRTY, STACK, SP, I and M, and which may make DT or ST
grow. No Step writes KEY or clears DIRTY (R159), and the draw's index moves by one with every Step (notes/assumptions/1.md).
That only CALL changes STACK needs that RET leaves the popped slot as it is (R25 marks STACK/SP as written by RET for its SP):
the spec's decision D18 (R15; notes/assumptions/20.md). That Fx33, Fx55, Fx65 and Dxyn leave I as it is, is its decision D16
(notes/assumptions/18.md). Which V registers
change is RegistersChangeOnlyWhereNamed, where pc goes is ProgramCounterAfterAStep. -/
def Obligations.OnlyTheListedInstructionsChangeAPiece : Prop :=
  ∀ s t, step s = .next t →
    let i := decode s.fetch
    t.key = s.key ∧ t.draws = s.draws + 1 ∧
    (s.dirty = true → t.dirty = true) ∧
    (t.pix ≠ s.pix ∨ t.dirty ≠ s.dirty → i = .cls ∨ ∃ x y n, i = .drw x y n) ∧
    (t.stack ≠ s.stack → ∃ nnn, i = .call nnn) ∧
    (t.sp ≠ s.sp → i = .ret ∨ ∃ nnn, i = .call nnn) ∧
    (t.i ≠ s.i → (∃ nnn, i = .ldI nnn) ∨ (∃ x, i = .addI x) ∨ ∃ x, i = .ldIF x) ∧
    (t.mem ≠ s.mem → (∃ x, i = .bcd x) ∨ ∃ x, i = .ldMemVx x) ∧
    (s.dt < t.dt → ∃ x, i = .ldDtVx x) ∧ (s.st < t.st → ∃ x, i = .ldStVx x)

/-- R11, R25, as a law of the whole machine: a V register changes only where the instruction names it as a data destination,
or, VF, by one of the six flag writers, and after those VF is 0 or 1. That no other instruction writes VF is the spec's
reading D15. -/
def Obligations.RegistersChangeOnlyWhereNamed : Prop :=
  ∀ s t, step s = .next t →
    let i := decode s.fetch
    (flagWriter i = true → t.getV 0xF#4 = 0 ∨ t.getV 0xF#4 = 1) ∧
    (∀ z, t.getV z ≠ s.getV z → writesData i z = true ∨ (z = 0xF#4 ∧ flagWriter i = true))

/-! ### Control transfer -/

/-- R90: RET pops; at SP = 0 it raises StackUnderflow with the address of the RET. That the popped slot keeps its content is the spec's decision D18 (R15; notes/assumptions/20.md). -/
def Obligations.RetPopsTheStack : Prop :=
  ∀ s : State,
    (s.sp.val = 0 → exec .ret s = .fault (.stackUnderflow (s.pc - 2))) ∧
    (s.sp.val ≠ 0 → Completes .ret s fun t =>
      t.sp.val = s.sp.val - 1 ∧ s.stack[s.sp.val - 1]? = some t.pc ∧ OnlyChanges [.pc, .sp] s t)

/-- R91, R97: JP loads nnn, JP V0 loads nnn + V0, not reduced to 12 bits. -/
def Obligations.JumpsLoadTheProgramCounter : Prop :=
  ∀ (nnn : Addr12) (s : State),
    (Completes (.jp nnn) s fun t => t.pc.toNat = nnn.toNat ∧ OnlyChanges [.pc] s t) ∧
    (Completes (.jpV0 nnn) s fun t => t.pc.toNat = nnn.toNat + (s.getV 0x0#4).toNat ∧ OnlyChanges [.pc] s t)

/-- R92: CALL pushes the advanced pc; at SP = 16 it raises StackOverflow with the address of the CALL. -/
def Obligations.CallPushesTheReturnAddress : Prop :=
  ∀ (nnn : Addr12) (s : State),
    (s.sp.val = 16 → exec (.call nnn) s = .fault (.stackOverflow (s.pc - 2))) ∧
    (s.sp.val < 16 → Completes (.call nnn) s fun t =>
      t.stack[s.sp.val]? = some s.pc ∧ (∀ k, k ≠ s.sp.val → t.stack[k]? = s.stack[k]?) ∧
      t.sp.val = s.sp.val + 1 ∧ t.pc.toNat = nnn.toNat ∧ OnlyChanges [.pc, .sp, .stack] s t)

/-- R90 with R92: a RET on the stack a CALL left returns to the instruction after the CALL, with the stack as deep as before. -/
def Obligations.RetUndoesCall : Prop :=
  ∀ (nnn : Addr12) (s : State), s.sp.val < 16 → Completes (.call nnn) s fun t =>
    ∀ u : State, u.stack = t.stack → u.sp = t.sp → Completes .ret u fun w => w.pc = s.pc ∧ w.sp = s.sp

/-- R93 to R96: the four comparing skips. -/
def Obligations.ComparingSkips : Prop :=
  ∀ (x y : Nib) (nn : Byte) (s : State),
    (Completes (.seImm x nn) s fun t =>
      t.pc = (if s.getV x = nn then s.pc + 2 else s.pc) ∧ OnlyChanges [.pc] s t) ∧
    (Completes (.sneImm x nn) s fun t =>
      t.pc = (if s.getV x ≠ nn then s.pc + 2 else s.pc) ∧ OnlyChanges [.pc] s t) ∧
    (Completes (.seReg x y) s fun t =>
      t.pc = (if s.getV x = s.getV y then s.pc + 2 else s.pc) ∧ OnlyChanges [.pc] s t) ∧
    (Completes (.sneReg x y) s fun t =>
      t.pc = (if s.getV x ≠ s.getV y then s.pc + 2 else s.pc) ∧ OnlyChanges [.pc] s t)

/-! ### Loads, ALU, random -/

/-- R100, R102: the two register loads; VF as the destination takes the value as data. -/
def Obligations.LoadsWriteTheDestination : Prop :=
  ∀ (x y : Nib) (nn : Byte) (s : State),
    (Completes (.ldImm x nn) s fun t => t.getV x = nn ∧ OnlyWritesV [x] s t ∧ OnlyChanges [.v] s t) ∧
    (Completes (.ldReg x y) s fun t => t.getV x = s.getV y ∧ OnlyWritesV [x] s t ∧ OnlyChanges [.v] s t)

/-- R101, R103, R104, R105: add immediate and the logic operations. That they leave VF alone unless x = 15 is the spec's
decision D15. -/
def Obligations.AddImmediateAndLogicWriteNoFlag : Prop :=
  ∀ (x y : Nib) (nn : Byte) (s : State),
    (Completes (.addImm x nn) s fun t =>
      (t.getV x).toNat = ((s.getV x).toNat + nn.toNat) % 256 ∧ OnlyWritesV [x] s t ∧ OnlyChanges [.v] s t) ∧
    (Completes (.orReg x y) s fun t =>
      (∀ k, (t.getV x).getLsbD k = ((s.getV x).getLsbD k || (s.getV y).getLsbD k)) ∧
      OnlyWritesV [x] s t ∧ OnlyChanges [.v] s t) ∧
    (Completes (.andReg x y) s fun t =>
      (∀ k, (t.getV x).getLsbD k = ((s.getV x).getLsbD k && (s.getV y).getLsbD k)) ∧
      OnlyWritesV [x] s t ∧ OnlyChanges [.v] s t) ∧
    (Completes (.xorReg x y) s fun t =>
      (∀ k, (t.getV x).getLsbD k = ((s.getV x).getLsbD k ^^ (s.getV y).getLsbD k)) ∧
      OnlyWritesV [x] s t ∧ OnlyChanges [.v] s t)

/-- R106, R107, R109: add, subtract and reverse subtract, with the carry or NOT borrow in VF, for every x and y, 15
included. -/
def Obligations.AddAndSubtractReportInVF : Prop :=
  ∀ (x y : Nib) (s : State),
    let a := (s.getV x).toNat
    let b := (s.getV y).toNat
    (Completes (.addReg x y) s fun t =>
      (x ≠ 0xF#4 → (t.getV x).toNat = (a + b) % 256) ∧ t.getV 0xF#4 = (if a + b > 255 then 1 else 0) ∧
      OnlyWritesV [x, 0xF#4] s t ∧ OnlyChanges [.v] s t) ∧
    (Completes (.sub x y) s fun t =>
      (x ≠ 0xF#4 → (t.getV x).toNat = (a + 256 - b) % 256) ∧ t.getV 0xF#4 = (if a ≥ b then 1 else 0) ∧
      OnlyWritesV [x, 0xF#4] s t ∧ OnlyChanges [.v] s t) ∧
    (Completes (.subn x y) s fun t =>
      (x ≠ 0xF#4 → (t.getV x).toNat = (b + 256 - a) % 256) ∧ t.getV 0xF#4 = (if b ≥ a then 1 else 0) ∧
      OnlyWritesV [x, 0xF#4] s t ∧ OnlyChanges [.v] s t)

/-- R108, R110: the shifts of Vx by one, with the bit shifted out in VF. That Vx and not Vy is shifted, for every y, is the
spec's decision D14. -/
def Obligations.ShiftsReportTheBitShiftedOut : Prop :=
  ∀ (x y : Nib) (s : State),
    let a := (s.getV x).toNat
    (Completes (.shr x y) s fun t =>
      (x ≠ 0xF#4 → (t.getV x).toNat = a / 2) ∧ (t.getV 0xF#4).toNat = a % 2 ∧
      OnlyWritesV [x, 0xF#4] s t ∧ OnlyChanges [.v] s t) ∧
    (Completes (.shl x y) s fun t =>
      (x ≠ 0xF#4 → (t.getV x).toNat = (2 * a) % 256) ∧ (t.getV 0xF#4).toNat = a / 128 ∧
      OnlyWritesV [x, 0xF#4] s t ∧ OnlyChanges [.v] s t)

/-- R112: in 8xy4, 8xy5, 8xy6, 8xy7 and 8xyE the result and the flag are computed from the old registers, the result is
written, and then the flag. That the shifts take Vx is the spec's decision D14. -/
def Obligations.FlagIsWrittenLast : Prop :=
  ∀ (x y : Nib) (s : State),
    let a := s.getV x
    let b := s.getV y
    exec (.addReg x y) s =
      .next ((s.setV x (a + b)).setV 0xF#4 (if a.toNat + b.toNat > 255 then 1 else 0)) ∧
    exec (.sub x y) s = .next ((s.setV x (a - b)).setV 0xF#4 (if a.toNat ≥ b.toNat then 1 else 0)) ∧
    exec (.shr x y) s = .next ((s.setV x (a >>> 1)).setV 0xF#4 (if a.getLsbD 0 then 1 else 0)) ∧
    exec (.subn x y) s = .next ((s.setV x (b - a)).setV 0xF#4 (if b.toNat ≥ a.toNat then 1 else 0)) ∧
    exec (.shl x y) s = .next ((s.setV x (a <<< 1)).setV 0xF#4 (if a.getLsbD 7 then 1 else 0))

/-- R111 (D20): RND writes the draw under the mask, whatever the draw is; bits outside the mask are 0. -/
def Obligations.RndWritesTheMaskedDraw : Prop :=
  ∀ (x : Nib) (nn : Byte) (s : State), Completes (.rnd x nn) s fun t =>
    (∀ draw : Byte, s.rndByte = draw → t.getV x = draw &&& nn) ∧
    (∀ k, nn.getLsbD k = false → (t.getV x).getLsbD k = false) ∧
    OnlyWritesV [x] s t ∧ OnlyChanges [.v] s t

/-! ### Memory, the index register -/

/-- R41, R42: a read gives the byte at the address modulo 4096; a write changes that byte and nothing else. The premise is the
model's invariant that memory is in canonical form. -/
def Obligations.MemoryPortReadsWhatWasWritten : Prop :=
  ∀ (s : State) (a : Nat) (b : Byte), s.Inv →
    (∀ c, (s.writeMem a b).readMem c = if c % 4096 = a % 4096 then b else s.readMem c) ∧
    (∀ c, s.readMem c = s.readMem (c % 4096)) ∧ OnlyChanges [.mem] s (s.writeMem a b)

/-- R43: the opcode is the two bytes at pc and pc + 1, modulo 4096, the one at the lower address being the high byte. -/
def Obligations.FetchIsBigEndian : Prop :=
  ∀ s : State, s.fetch.toNat =
    (s.readMem (s.pc.toNat % 4096)).toNat * 256 + (s.readMem ((s.pc.toNat + 1) % 4096)).toNat

/-- R50: two bytes stored by an LD [I], Vx at the address of the next instruction are the opcode the next Step fetches. -/
def Obligations.NextFetchSeesAStore : Prop :=
  ∀ (x : Nib) (s : State), s.Inv → x ≠ 0x0#4 → s.i.toNat % 4096 = s.pc.toNat % 4096 →
    Completes (.ldMemVx x) s fun t => t.fetch = s.getV 0x0#4 ++ s.getV 0x1#4

/-- The loader the host's checks use (notes/assumptions/6.md): a word placed at pc is what the next Step runs, and placing it
changes memory only. -/
def Obligations.StepRunsAPlacedWord : Prop :=
  ∀ (s : State) (op : Word), s.Inv →
    OnlyChanges [.mem] s (s.withFetchWord 16 op.toNat) ∧ (s.withFetchWord 16 op.toNat).Inv ∧
    step (s.withFetchWord 16 op.toNat) =
      mapNext (fun t => t.endStep .perStep) (exec (decode op) (s.withFetchWord 16 op.toNat).advance)

/-- R120: LD I loads the 12-bit address, zero-extended. -/
def Obligations.LoadIndexZeroExtends : Prop :=
  ∀ (nnn : Addr12) (s : State), Completes (.ldI nnn) s fun t => t.i.toNat = nnn.toNat ∧ OnlyChanges [.i] s t

/-- R121, R122: ADD I wraps at 65536 and writes no flag (decision D15); LD I, F(Vx) loads 5 * Vx for all values of Vx
(decision D12). -/
def Obligations.IndexArithmetic : Prop :=
  ∀ (x : Nib) (s : State),
    (Completes (.addI x) s fun t =>
      t.i.toNat = (s.i.toNat + (s.getV x).toNat) % 65536 ∧ OnlyChanges [.i] s t) ∧
    (Completes (.ldIF x) s fun t => t.i.toNat = 5 * (s.getV x).toNat ∧ OnlyChanges [.i] s t)

/-- R123: BCD stores hundreds, tens and ones at I, I + 1, I + 2, addresses wrapping; every other byte of memory is
unchanged; that I is unchanged is the spec's decision D16. The premise is the model's invariant. -/
def Obligations.BcdStoresThreeDigits : Prop :=
  ∀ (x : Nib) (s : State), s.Inv → Completes (.bcd x) s fun t =>
    (t.readMem (s.dataAddr 0)).toNat = (s.getV x).toNat / 100 ∧
    (t.readMem (s.dataAddr 1)).toNat = (s.getV x).toNat / 10 % 10 ∧
    (t.readMem (s.dataAddr 2)).toNat = (s.getV x).toNat % 10 ∧
    (∀ c, (∀ k, k < 3 → memAddr c ≠ memAddr (s.dataAddr k)) → t.readMem c = s.readMem c) ∧
    OnlyChanges [.mem] s t

/-- R124: LD [I], Vx stores V0..Vx at I..I + x, addresses wrapping; every other byte is unchanged. That I is unchanged is the
spec's decision D16. The premise is the model's invariant. -/
def Obligations.StoreRegistersWritesExactlyItsBytes : Prop :=
  ∀ (x : Nib) (s : State), s.Inv → Completes (.ldMemVx x) s fun t =>
    (∀ k : Nib, k ≤ x → t.readMem (s.dataAddr k.toNat) = s.getV k) ∧
    (∀ c, (∀ k : Nib, k ≤ x → memAddr c ≠ memAddr (s.dataAddr k.toNat)) → t.readMem c = s.readMem c) ∧
    OnlyChanges [.mem] s t

/-- R125: LD Vx, [I] loads V0..Vx from I..I + x, addresses wrapping; the registers above x and memory are unchanged. That I is
unchanged is the spec's decision D16. -/
def Obligations.LoadRegistersReadsExactlyItsBytes : Prop :=
  ∀ (x : Nib) (s : State), Completes (.ldVxMem x) s fun t =>
    (∀ k : Nib, k ≤ x → t.getV k = s.readMem (s.dataAddr k.toNat)) ∧
    (∀ k : Nib, x < k → t.getV k = s.getV k) ∧ OnlyChanges [.v] s t

/-- The round trip of R125: after LD [I], Vx, whatever happens to V0..Vx, an LD Vx, [I] with the same x and I gives V0..Vx back
while the stored bytes stand. It rests on I being unchanged (D16). -/
def Obligations.LoadUndoesStore : Prop :=
  ∀ (x : Nib) (s : State), s.Inv → Completes (.ldMemVx x) s fun t =>
    ∀ u : State, u.i = t.i →
      (∀ k : Nib, k ≤ x → u.readMem (s.dataAddr k.toNat) = t.readMem (s.dataAddr k.toNat)) →
      Completes (.ldVxMem x) u fun w => ∀ k : Nib, k ≤ x → w.getV k = s.getV k

/-! ### Display -/

/-- R130: CLS turns every cell off and sets DIRTY, VF is not written. -/
def Obligations.ClsClearsTheGrid : Prop :=
  ∀ s : State, Completes .cls s fun t =>
    (∀ cx cy, cx < 64 → cy < 32 → t.pix.get cx cy = false) ∧ t.dirty = true ∧ OnlyChanges [.pix, .dirty] s t

/-- R131, R132: DRW toggles exactly the cells on which a set sprite bit lands, VF is 1 exactly when one of them was on and else
0, DIRTY is set, I and memory are unchanged. That Vx, Vy and I are sampled first and what n = 0 does are the spec's decisions
D17 and D25, and that I is unchanged is its decision D16 (notes/assumptions/18.md). -/
def Obligations.DrwXorsTheSprite : Prop :=
  ∀ (x y n : Nib) (s : State), Completes (.drw x y n) s fun t =>
    let S := fun cx cy => s.InSprite (s.getV x) (s.getV y) n.toNat cx cy
    (∀ cx cy, cx < 64 → cy < 32 →
      (S cx cy → t.pix.get cx cy = !(s.pix.get cx cy)) ∧ (¬S cx cy → t.pix.get cx cy = s.pix.get cx cy)) ∧
    ((∃ cx cy, cx < 64 ∧ cy < 32 ∧ S cx cy ∧ s.pix.get cx cy = true) → t.getV 0xF#4 = 1) ∧
    ((¬∃ cx cy, cx < 64 ∧ cy < 32 ∧ S cx cy ∧ s.pix.get cx cy = true) → t.getV 0xF#4 = 0) ∧
    t.dirty = true ∧ OnlyWritesV [0xF#4] s t ∧ OnlyChanges [.v, .pix, .dirty] s t

/-- R131, corner cases: drawing the same sprite twice at the same place restores the grid. The second draw reports VF = 1 exactly
when some cell under a set sprite bit was off before the first: the pseudocode's answer, where the spec's remark says "if the
sprite has any set bit" (notes/assumptions/28.md); on a grid that is off under the sprite the two agree. (With x or y = 15
the first draw changes a coordinate: another place, so the statement is about the others. That the second draw reads the
same bytes rests on I being unchanged, decision D16, notes/assumptions/18.md.) -/
def Obligations.DrawingTwiceRestoresTheGrid : Prop :=
  ∀ (x y n : Nib) (s : State), x ≠ 0xF#4 → y ≠ 0xF#4 → Completes (.drw x y n) s fun t =>
    Completes (.drw x y n) t fun u =>
      u.pix = s.pix ∧
      (u.getV 0xF#4 = 1 ↔ ∃ cx cy, cx < 64 ∧ cy < 32 ∧ s.InSprite (s.getV x) (s.getV y) n.toNat cx cy ∧
        s.pix.get cx cy = false)

/-! ### Keypad and timers -/

/-- R140, R141: SKP and SKNP test the key numbered Vx; that Vx above 15 selects Vx mod 16 is the spec's decision D11. -/
def Obligations.KeySkipsTestTheSelectedKey : Prop :=
  ∀ (x k : Nib) (s : State), (s.getV x).toNat % 16 = k.toNat →
    (Completes (.skp x) s fun t =>
      t.pc = (if s.keyPressed k = true then s.pc + 2 else s.pc) ∧ OnlyChanges [.pc] s t) ∧
    (Completes (.sknp x) s fun t =>
      t.pc = (if s.keyPressed k = false then s.pc + 2 else s.pc) ∧ OnlyChanges [.pc] s t)

/-- R142, R144, R145: the moves between V and the timers, and what the tick of the same Step makes of them in per_step
coupling. -/
def Obligations.TimerMoves : Prop :=
  ∀ (x : Nib) (s : State),
    (Completes (.ldVxDt x) s fun t => t.getV x = s.dt ∧ OnlyWritesV [x] s t ∧ OnlyChanges [.v] s t) ∧
    (Completes (.ldDtVx x) s fun t => t.dt = s.getV x ∧ OnlyChanges [.dt] s t) ∧
    (Completes (.ldStVx x) s fun t => t.st = s.getV x ∧ OnlyChanges [.st] s t) ∧
    (decode s.fetch = .ldVxDt x → ∃ t, stepWith .perStep s = .next t ∧
      t.getV x = s.dt ∧ t.dt.toNat = s.dt.toNat - 1) ∧
    (decode s.fetch = .ldDtVx x → ∃ t, stepWith .perStep s = .next t ∧
      t.dt.toNat = (s.getV x).toNat - 1) ∧
    (decode s.fetch = .ldStVx x → ∃ t, stepWith .perStep s = .next t ∧
      t.st.toNat = (s.getV x).toNat - 1 ∧ hostOp .soundActive t = .next (t, .bool (decide (t.st ≠ 0x00))))

/-- R143: LD Vx, K with no key pressed puts pc back to pc0 (a waiting Step still ticks the timers, D3); with keys pressed it loads
the lowest (D9), without waiting for a release (D10). -/
def Obligations.KeyWaitRepollsOrLoadsTheLowestKey : Prop :=
  ∀ (x : Nib) (s : State),
    ((∀ k, s.keyPressed k = false) →
      Completes (.ldVxK x) s fun t => t.pc = s.pc - 2 ∧ OnlyChanges [.pc] s t) ∧
    (∀ k, s.keyPressed k = true → (∀ j, j < k → s.keyPressed j = false) →
      Completes (.ldVxK x) s fun t => (t.getV x).toNat = k.toNat ∧ OnlyWritesV [x] s t ∧ OnlyChanges [.v] s t) ∧
    (decode s.fetch = .ldVxK x → (∀ k, s.keyPressed k = false) → StepOk s fun t =>
      t.pc = s.pc ∧ t.dt.toNat = s.dt.toNat - 1 ∧ t.st.toNat = s.st.toNat - 1 ∧ OnlyChanges [.dt, .st, .draws] s t)

/-! ### Host operations -/

/-- R180 (D6, D7): Reset gives the state of R24 and keeps KEY. The draws are not rewound, the model's choice
(notes/assumptions/1.md); that memory after Reset is the empty list is the model's representation (DESIGN CHOICE,
notes/assumptions/27.md). -/
def Obligations.HostResetKeepsTheKeysAndTheDraws : Prop :=
  ∀ s : State, ∃ t, hostOp .reset s = .next (t, .nothing) ∧
    OnlyChanges [.draws] (State.resetWith s.key) t ∧ t.mem = [] ∧ t.draws = s.draws

/-- R154: LoadProgram returns LoadError exactly for an image that does not fit, and then nothing is written; no Step raises it.
The bound 3584 and success up to it, the empty image included, are R184's (decision D22, notes/assumptions/23.md); the value, the
offered length, is R150's (decision D19, notes/assumptions/21.md); that the state after the fault is the old one holds by the
definition of `hostAfter` (DEDUCED, notes/assumptions/5.md). -/
def Obligations.LoadErrorWritesNothing : Prop :=
  ∀ (bytes : List Byte) (s : State),
    (bytes.length > 3584 → hostOp (.loadProgram bytes) s = .fault (.loadError bytes.length) ∧
      hostAfter (.loadProgram bytes) s = s) ∧
    (bytes.length ≤ 3584 → ∃ t, hostOp (.loadProgram bytes) s = .next (t, .nothing)) ∧
    (∀ n, hostOp .step s ≠ .fault (.loadError n))

/-- R184 (D22): a program that fits is placed verbatim from 0x200 on, and nothing else changes. The premise is the model's
invariant. -/
def Obligations.LoadProgramPlacesTheImage : Prop :=
  ∀ (bytes : List Byte) (s : State), s.Inv → bytes.length ≤ 3584 →
    ∃ t, hostOp (.loadProgram bytes) s = .next (t, .nothing) ∧
      (∀ k, k < bytes.length → bytes[k]? = some (t.readMem (0x200 + k))) ∧
      (∀ a, a < 4096 → (a < 0x200 ∨ 0x200 + bytes.length ≤ a) → t.readMem a = s.readMem a) ∧
      OnlyChanges [.mem] s t

/-- R162: ConsumeDirty returns DIRTY and clears it; nothing else clears it but Reset; CLS and DRW, and nothing else, set it (a DRW
that changes no cell too: decision D25). That an operation which faults or is refused leaves DIRTY as it was is `hostAfter`'s
definition, the model's (notes/assumptions/5.md, 33.md). -/
def Obligations.DirtyIsSetByDrawingAndClearedByConsuming : Prop :=
  ∀ s : State,
    (∃ t, hostOp .consumeDirty s = .next (t, .bool s.dirty) ∧ t.dirty = false ∧ OnlyChanges [.dirty] s t) ∧
    (∀ op, op ≠ .consumeDirty → op ≠ .reset → s.dirty = true → (hostAfter op s).dirty = true) ∧
    ((decode s.fetch = .cls ∨ ∃ x y n, decode s.fetch = .drw x y n) → (hostAfter .step s).dirty = true) ∧
    (∀ op, s.dirty = false → (hostAfter op s).dirty = true →
      op = .step ∧ (decode s.fetch = .cls ∨ ∃ x y n, decode s.fetch = .drw x y n))

/-- R160, R161, R163, R164 (D1, D2, D21): SetKey writes one key and refuses an index above 15; ReadPixel and SoundActive change
nothing; TickTimers is a host operation only when TIMER_COUPLING = external. -/
def Obligations.HostAccessors : Prop :=
  ∀ s : State,
    (∀ (k : Nib) (b : Bool), ∃ t, hostOp (.setKey k.toNat b) s = .next (t, .nothing) ∧
      (∀ j, t.keyPressed j = if j = k then b else s.keyPressed j) ∧ OnlyChanges [.key] s t) ∧
    (∀ n b, 16 ≤ n → hostOp (.setKey n b) s = .refused (.setKeyOutOfRange n)) ∧
    (∀ cx cy, cx < 64 → cy < 32 → hostOp (.readPixel cx cy) s = .next (s, .bool (s.pix.get cx cy))) ∧
    (∀ cx cy, 64 ≤ cx ∨ 32 ≤ cy → hostOp (.readPixel cx cy) s = .refused (.readPixelOutOfRange cx cy)) ∧
    hostOp .soundActive s = .next (s, .bool (decide (s.st ≠ 0x00))) ∧
    hostOpWith .external .tickTimers s = .next (s.tickTimers, .nothing) ∧
    hostOp .tickTimers s = .refused .noHostTick

/-! ### Invariants -/

/-- The state after Reset meets the invariant, for every vector of keys. -/
def Obligations.ResetMeetsTheInvariant : Prop := ∀ keys, (State.resetWith keys).Inv

/-- Every Step, under either coupling, keeps memory in canonical form, from every state that meets the invariant. -/
def Obligations.EveryStepKeepsTheInvariant : Prop :=
  ∀ (c : Config.TimerCoupling) (s t : State), s.Inv → stepWith c s = .next t → t.Inv

/-- R165: every sequence of host operations and Steps keeps the invariant, and a sequence without SetKey leaves KEY as it was
(R20, R159). The invariant is the model's representation (notes/assumptions/27.md); that a fault or a refusal leaves the state
as it was and the sequence goes on is the model's too (notes/assumptions/5.md, 33.md). -/
def Obligations.EveryHostRunKeepsTheInvariant : Prop :=
  ∀ (ops : List HostOp) (s : State), s.Inv →
    (hostRun ops s).Inv ∧ ((∀ op ∈ ops, ∀ k b, op ≠ .setKey k b) → (hostRun ops s).key = s.key)
end

