-- ==== Sys2Proof/Laws/State.lean ====
section
/-! SUPPORT. One lemma for each field of State under each setter, and for each accessor a setter does not disturb. -/

namespace Sys2Proof.Machine.State

/-! ### setV -/

@[simp] theorem setV_v (s : State) (x : Nib) (b : Byte) : (s.setV x b).v = s.v.set x.toNat b x.isLt := rfl
@[simp] theorem setV_i (s : State) (x : Nib) (b : Byte) : (s.setV x b).i = s.i := rfl
@[simp] theorem setV_pc (s : State) (x : Nib) (b : Byte) : (s.setV x b).pc = s.pc := rfl
@[simp] theorem setV_stack (s : State) (x : Nib) (b : Byte) : (s.setV x b).stack = s.stack := rfl
@[simp] theorem setV_sp (s : State) (x : Nib) (b : Byte) : (s.setV x b).sp = s.sp := rfl
@[simp] theorem setV_dt (s : State) (x : Nib) (b : Byte) : (s.setV x b).dt = s.dt := rfl
@[simp] theorem setV_st (s : State) (x : Nib) (b : Byte) : (s.setV x b).st = s.st := rfl
@[simp] theorem setV_pix (s : State) (x : Nib) (b : Byte) : (s.setV x b).pix = s.pix := rfl
@[simp] theorem setV_key (s : State) (x : Nib) (b : Byte) : (s.setV x b).key = s.key := rfl
@[simp] theorem setV_dirty (s : State) (x : Nib) (b : Byte) : (s.setV x b).dirty = s.dirty := rfl
@[simp] theorem setV_mem (s : State) (x : Nib) (b : Byte) : (s.setV x b).mem = s.mem := rfl
@[simp] theorem setV_draws (s : State) (x : Nib) (b : Byte) : (s.setV x b).draws = s.draws := rfl
@[simp] theorem setV_readMem (s : State) (x : Nib) (b : Byte) (a : Nat) : (s.setV x b).readMem a = s.readMem a := rfl
@[simp] theorem setV_dataAddr (s : State) (x : Nib) (b : Byte) (j : Nat) : (s.setV x b).dataAddr j = s.dataAddr j := rfl
@[simp] theorem setV_keyPressed (s : State) (x : Nib) (b : Byte) (z : Nib) : (s.setV x b).keyPressed z = s.keyPressed z := rfl
@[simp] theorem setV_lowestKey (s : State) (x : Nib) (b : Byte) : (s.setV x b).lowestKey = s.lowestKey := rfl
@[simp] theorem setV_rndByte (s : State) (x : Nib) (b : Byte) : (s.setV x b).rndByte = s.rndByte := rfl
@[simp] theorem setV_pc0 (s : State) (x : Nib) (b : Byte) : (s.setV x b).pc0 = s.pc0 := rfl

/-! ### setI -/

@[simp] theorem setI_v (s : State) (w : Word) : (s.setI w).v = s.v := rfl
@[simp] theorem setI_i (s : State) (w : Word) : (s.setI w).i = w := rfl
@[simp] theorem setI_pc (s : State) (w : Word) : (s.setI w).pc = s.pc := rfl
@[simp] theorem setI_stack (s : State) (w : Word) : (s.setI w).stack = s.stack := rfl
@[simp] theorem setI_sp (s : State) (w : Word) : (s.setI w).sp = s.sp := rfl
@[simp] theorem setI_dt (s : State) (w : Word) : (s.setI w).dt = s.dt := rfl
@[simp] theorem setI_st (s : State) (w : Word) : (s.setI w).st = s.st := rfl
@[simp] theorem setI_pix (s : State) (w : Word) : (s.setI w).pix = s.pix := rfl
@[simp] theorem setI_key (s : State) (w : Word) : (s.setI w).key = s.key := rfl
@[simp] theorem setI_dirty (s : State) (w : Word) : (s.setI w).dirty = s.dirty := rfl
@[simp] theorem setI_mem (s : State) (w : Word) : (s.setI w).mem = s.mem := rfl
@[simp] theorem setI_draws (s : State) (w : Word) : (s.setI w).draws = s.draws := rfl
@[simp] theorem setI_getV (s : State) (w : Word) (z : Nib) : (s.setI w).getV z = s.getV z := rfl
@[simp] theorem setI_readMem (s : State) (w : Word) (a : Nat) : (s.setI w).readMem a = s.readMem a := rfl
@[simp] theorem setI_keyPressed (s : State) (w : Word) (z : Nib) : (s.setI w).keyPressed z = s.keyPressed z := rfl
@[simp] theorem setI_lowestKey (s : State) (w : Word) : (s.setI w).lowestKey = s.lowestKey := rfl
@[simp] theorem setI_rndByte (s : State) (w : Word) : (s.setI w).rndByte = s.rndByte := rfl
@[simp] theorem setI_pc0 (s : State) (w : Word) : (s.setI w).pc0 = s.pc0 := rfl

/-! ### setPc -/

@[simp] theorem setPc_v (s : State) (w : Word) : (s.setPc w).v = s.v := rfl
@[simp] theorem setPc_i (s : State) (w : Word) : (s.setPc w).i = s.i := rfl
@[simp] theorem setPc_pc (s : State) (w : Word) : (s.setPc w).pc = w := rfl
@[simp] theorem setPc_stack (s : State) (w : Word) : (s.setPc w).stack = s.stack := rfl
@[simp] theorem setPc_sp (s : State) (w : Word) : (s.setPc w).sp = s.sp := rfl
@[simp] theorem setPc_dt (s : State) (w : Word) : (s.setPc w).dt = s.dt := rfl
@[simp] theorem setPc_st (s : State) (w : Word) : (s.setPc w).st = s.st := rfl
@[simp] theorem setPc_pix (s : State) (w : Word) : (s.setPc w).pix = s.pix := rfl
@[simp] theorem setPc_key (s : State) (w : Word) : (s.setPc w).key = s.key := rfl
@[simp] theorem setPc_dirty (s : State) (w : Word) : (s.setPc w).dirty = s.dirty := rfl
@[simp] theorem setPc_mem (s : State) (w : Word) : (s.setPc w).mem = s.mem := rfl
@[simp] theorem setPc_draws (s : State) (w : Word) : (s.setPc w).draws = s.draws := rfl
@[simp] theorem setPc_getV (s : State) (w : Word) (z : Nib) : (s.setPc w).getV z = s.getV z := rfl
@[simp] theorem setPc_readMem (s : State) (w : Word) (a : Nat) : (s.setPc w).readMem a = s.readMem a := rfl
@[simp] theorem setPc_dataAddr (s : State) (w : Word) (j : Nat) : (s.setPc w).dataAddr j = s.dataAddr j := rfl
@[simp] theorem setPc_keyPressed (s : State) (w : Word) (z : Nib) : (s.setPc w).keyPressed z = s.keyPressed z := rfl
@[simp] theorem setPc_lowestKey (s : State) (w : Word) : (s.setPc w).lowestKey = s.lowestKey := rfl
@[simp] theorem setPc_rndByte (s : State) (w : Word) : (s.setPc w).rndByte = s.rndByte := rfl

/-! ### setStack -/

@[simp] theorem setStack_v (s : State) (k : Vector Word 16) : (s.setStack k).v = s.v := rfl
@[simp] theorem setStack_i (s : State) (k : Vector Word 16) : (s.setStack k).i = s.i := rfl
@[simp] theorem setStack_pc (s : State) (k : Vector Word 16) : (s.setStack k).pc = s.pc := rfl
@[simp] theorem setStack_stack (s : State) (k : Vector Word 16) : (s.setStack k).stack = k := rfl
@[simp] theorem setStack_sp (s : State) (k : Vector Word 16) : (s.setStack k).sp = s.sp := rfl
@[simp] theorem setStack_dt (s : State) (k : Vector Word 16) : (s.setStack k).dt = s.dt := rfl
@[simp] theorem setStack_st (s : State) (k : Vector Word 16) : (s.setStack k).st = s.st := rfl
@[simp] theorem setStack_pix (s : State) (k : Vector Word 16) : (s.setStack k).pix = s.pix := rfl
@[simp] theorem setStack_key (s : State) (k : Vector Word 16) : (s.setStack k).key = s.key := rfl
@[simp] theorem setStack_dirty (s : State) (k : Vector Word 16) : (s.setStack k).dirty = s.dirty := rfl
@[simp] theorem setStack_mem (s : State) (k : Vector Word 16) : (s.setStack k).mem = s.mem := rfl
@[simp] theorem setStack_draws (s : State) (k : Vector Word 16) : (s.setStack k).draws = s.draws := rfl
@[simp] theorem setStack_getV (s : State) (k : Vector Word 16) (z : Nib) : (s.setStack k).getV z = s.getV z := rfl
@[simp] theorem setStack_readMem (s : State) (k : Vector Word 16) (a : Nat) : (s.setStack k).readMem a = s.readMem a := rfl
@[simp] theorem setStack_dataAddr (s : State) (k : Vector Word 16) (j : Nat) : (s.setStack k).dataAddr j = s.dataAddr j := rfl
@[simp] theorem setStack_keyPressed (s : State) (k : Vector Word 16) (z : Nib) : (s.setStack k).keyPressed z = s.keyPressed z := rfl
@[simp] theorem setStack_lowestKey (s : State) (k : Vector Word 16) : (s.setStack k).lowestKey = s.lowestKey := rfl
@[simp] theorem setStack_rndByte (s : State) (k : Vector Word 16) : (s.setStack k).rndByte = s.rndByte := rfl
@[simp] theorem setStack_pc0 (s : State) (k : Vector Word 16) : (s.setStack k).pc0 = s.pc0 := rfl

/-! ### setSp -/

@[simp] theorem setSp_v (s : State) (k : Fin 17) : (s.setSp k).v = s.v := rfl
@[simp] theorem setSp_i (s : State) (k : Fin 17) : (s.setSp k).i = s.i := rfl
@[simp] theorem setSp_pc (s : State) (k : Fin 17) : (s.setSp k).pc = s.pc := rfl
@[simp] theorem setSp_stack (s : State) (k : Fin 17) : (s.setSp k).stack = s.stack := rfl
@[simp] theorem setSp_sp (s : State) (k : Fin 17) : (s.setSp k).sp = k := rfl
@[simp] theorem setSp_dt (s : State) (k : Fin 17) : (s.setSp k).dt = s.dt := rfl
@[simp] theorem setSp_st (s : State) (k : Fin 17) : (s.setSp k).st = s.st := rfl
@[simp] theorem setSp_pix (s : State) (k : Fin 17) : (s.setSp k).pix = s.pix := rfl
@[simp] theorem setSp_key (s : State) (k : Fin 17) : (s.setSp k).key = s.key := rfl
@[simp] theorem setSp_dirty (s : State) (k : Fin 17) : (s.setSp k).dirty = s.dirty := rfl
@[simp] theorem setSp_mem (s : State) (k : Fin 17) : (s.setSp k).mem = s.mem := rfl
@[simp] theorem setSp_draws (s : State) (k : Fin 17) : (s.setSp k).draws = s.draws := rfl
@[simp] theorem setSp_getV (s : State) (k : Fin 17) (z : Nib) : (s.setSp k).getV z = s.getV z := rfl
@[simp] theorem setSp_readMem (s : State) (k : Fin 17) (a : Nat) : (s.setSp k).readMem a = s.readMem a := rfl
@[simp] theorem setSp_dataAddr (s : State) (k : Fin 17) (j : Nat) : (s.setSp k).dataAddr j = s.dataAddr j := rfl
@[simp] theorem setSp_keyPressed (s : State) (k : Fin 17) (z : Nib) : (s.setSp k).keyPressed z = s.keyPressed z := rfl
@[simp] theorem setSp_lowestKey (s : State) (k : Fin 17) : (s.setSp k).lowestKey = s.lowestKey := rfl
@[simp] theorem setSp_rndByte (s : State) (k : Fin 17) : (s.setSp k).rndByte = s.rndByte := rfl
@[simp] theorem setSp_pc0 (s : State) (k : Fin 17) : (s.setSp k).pc0 = s.pc0 := rfl

/-! ### setDt -/

@[simp] theorem setDt_v (s : State) (b : Byte) : (s.setDt b).v = s.v := rfl
@[simp] theorem setDt_i (s : State) (b : Byte) : (s.setDt b).i = s.i := rfl
@[simp] theorem setDt_pc (s : State) (b : Byte) : (s.setDt b).pc = s.pc := rfl
@[simp] theorem setDt_stack (s : State) (b : Byte) : (s.setDt b).stack = s.stack := rfl
@[simp] theorem setDt_sp (s : State) (b : Byte) : (s.setDt b).sp = s.sp := rfl
@[simp] theorem setDt_dt (s : State) (b : Byte) : (s.setDt b).dt = b := rfl
@[simp] theorem setDt_st (s : State) (b : Byte) : (s.setDt b).st = s.st := rfl
@[simp] theorem setDt_pix (s : State) (b : Byte) : (s.setDt b).pix = s.pix := rfl
@[simp] theorem setDt_key (s : State) (b : Byte) : (s.setDt b).key = s.key := rfl
@[simp] theorem setDt_dirty (s : State) (b : Byte) : (s.setDt b).dirty = s.dirty := rfl
@[simp] theorem setDt_mem (s : State) (b : Byte) : (s.setDt b).mem = s.mem := rfl
@[simp] theorem setDt_draws (s : State) (b : Byte) : (s.setDt b).draws = s.draws := rfl
@[simp] theorem setDt_getV (s : State) (b : Byte) (z : Nib) : (s.setDt b).getV z = s.getV z := rfl
@[simp] theorem setDt_readMem (s : State) (b : Byte) (a : Nat) : (s.setDt b).readMem a = s.readMem a := rfl
@[simp] theorem setDt_dataAddr (s : State) (b : Byte) (j : Nat) : (s.setDt b).dataAddr j = s.dataAddr j := rfl
@[simp] theorem setDt_keyPressed (s : State) (b : Byte) (z : Nib) : (s.setDt b).keyPressed z = s.keyPressed z := rfl
@[simp] theorem setDt_lowestKey (s : State) (b : Byte) : (s.setDt b).lowestKey = s.lowestKey := rfl
@[simp] theorem setDt_rndByte (s : State) (b : Byte) : (s.setDt b).rndByte = s.rndByte := rfl
@[simp] theorem setDt_pc0 (s : State) (b : Byte) : (s.setDt b).pc0 = s.pc0 := rfl

/-! ### setSt -/

@[simp] theorem setSt_v (s : State) (b : Byte) : (s.setSt b).v = s.v := rfl
@[simp] theorem setSt_i (s : State) (b : Byte) : (s.setSt b).i = s.i := rfl
@[simp] theorem setSt_pc (s : State) (b : Byte) : (s.setSt b).pc = s.pc := rfl
@[simp] theorem setSt_stack (s : State) (b : Byte) : (s.setSt b).stack = s.stack := rfl
@[simp] theorem setSt_sp (s : State) (b : Byte) : (s.setSt b).sp = s.sp := rfl
@[simp] theorem setSt_dt (s : State) (b : Byte) : (s.setSt b).dt = s.dt := rfl
@[simp] theorem setSt_st (s : State) (b : Byte) : (s.setSt b).st = b := rfl
@[simp] theorem setSt_pix (s : State) (b : Byte) : (s.setSt b).pix = s.pix := rfl
@[simp] theorem setSt_key (s : State) (b : Byte) : (s.setSt b).key = s.key := rfl
@[simp] theorem setSt_dirty (s : State) (b : Byte) : (s.setSt b).dirty = s.dirty := rfl
@[simp] theorem setSt_mem (s : State) (b : Byte) : (s.setSt b).mem = s.mem := rfl
@[simp] theorem setSt_draws (s : State) (b : Byte) : (s.setSt b).draws = s.draws := rfl
@[simp] theorem setSt_getV (s : State) (b : Byte) (z : Nib) : (s.setSt b).getV z = s.getV z := rfl
@[simp] theorem setSt_readMem (s : State) (b : Byte) (a : Nat) : (s.setSt b).readMem a = s.readMem a := rfl
@[simp] theorem setSt_dataAddr (s : State) (b : Byte) (j : Nat) : (s.setSt b).dataAddr j = s.dataAddr j := rfl
@[simp] theorem setSt_keyPressed (s : State) (b : Byte) (z : Nib) : (s.setSt b).keyPressed z = s.keyPressed z := rfl
@[simp] theorem setSt_lowestKey (s : State) (b : Byte) : (s.setSt b).lowestKey = s.lowestKey := rfl
@[simp] theorem setSt_rndByte (s : State) (b : Byte) : (s.setSt b).rndByte = s.rndByte := rfl
@[simp] theorem setSt_pc0 (s : State) (b : Byte) : (s.setSt b).pc0 = s.pc0 := rfl

/-! ### setPix -/

@[simp] theorem setPix_v (s : State) (g : Grid) : (s.setPix g).v = s.v := rfl
@[simp] theorem setPix_i (s : State) (g : Grid) : (s.setPix g).i = s.i := rfl
@[simp] theorem setPix_pc (s : State) (g : Grid) : (s.setPix g).pc = s.pc := rfl
@[simp] theorem setPix_stack (s : State) (g : Grid) : (s.setPix g).stack = s.stack := rfl
@[simp] theorem setPix_sp (s : State) (g : Grid) : (s.setPix g).sp = s.sp := rfl
@[simp] theorem setPix_dt (s : State) (g : Grid) : (s.setPix g).dt = s.dt := rfl
@[simp] theorem setPix_st (s : State) (g : Grid) : (s.setPix g).st = s.st := rfl
@[simp] theorem setPix_pix (s : State) (g : Grid) : (s.setPix g).pix = g := rfl
@[simp] theorem setPix_key (s : State) (g : Grid) : (s.setPix g).key = s.key := rfl
@[simp] theorem setPix_dirty (s : State) (g : Grid) : (s.setPix g).dirty = s.dirty := rfl
@[simp] theorem setPix_mem (s : State) (g : Grid) : (s.setPix g).mem = s.mem := rfl
@[simp] theorem setPix_draws (s : State) (g : Grid) : (s.setPix g).draws = s.draws := rfl
@[simp] theorem setPix_getV (s : State) (g : Grid) (z : Nib) : (s.setPix g).getV z = s.getV z := rfl
@[simp] theorem setPix_readMem (s : State) (g : Grid) (a : Nat) : (s.setPix g).readMem a = s.readMem a := rfl
@[simp] theorem setPix_dataAddr (s : State) (g : Grid) (j : Nat) : (s.setPix g).dataAddr j = s.dataAddr j := rfl
@[simp] theorem setPix_keyPressed (s : State) (g : Grid) (z : Nib) : (s.setPix g).keyPressed z = s.keyPressed z := rfl
@[simp] theorem setPix_lowestKey (s : State) (g : Grid) : (s.setPix g).lowestKey = s.lowestKey := rfl
@[simp] theorem setPix_rndByte (s : State) (g : Grid) : (s.setPix g).rndByte = s.rndByte := rfl
@[simp] theorem setPix_pc0 (s : State) (g : Grid) : (s.setPix g).pc0 = s.pc0 := rfl

/-! ### setKey -/

@[simp] theorem setKey_v (s : State) (k : Vector Bool 16) : (s.setKey k).v = s.v := rfl
@[simp] theorem setKey_i (s : State) (k : Vector Bool 16) : (s.setKey k).i = s.i := rfl
@[simp] theorem setKey_pc (s : State) (k : Vector Bool 16) : (s.setKey k).pc = s.pc := rfl
@[simp] theorem setKey_stack (s : State) (k : Vector Bool 16) : (s.setKey k).stack = s.stack := rfl
@[simp] theorem setKey_sp (s : State) (k : Vector Bool 16) : (s.setKey k).sp = s.sp := rfl
@[simp] theorem setKey_dt (s : State) (k : Vector Bool 16) : (s.setKey k).dt = s.dt := rfl
@[simp] theorem setKey_st (s : State) (k : Vector Bool 16) : (s.setKey k).st = s.st := rfl
@[simp] theorem setKey_pix (s : State) (k : Vector Bool 16) : (s.setKey k).pix = s.pix := rfl
@[simp] theorem setKey_key (s : State) (k : Vector Bool 16) : (s.setKey k).key = k := rfl
@[simp] theorem setKey_dirty (s : State) (k : Vector Bool 16) : (s.setKey k).dirty = s.dirty := rfl
@[simp] theorem setKey_mem (s : State) (k : Vector Bool 16) : (s.setKey k).mem = s.mem := rfl
@[simp] theorem setKey_draws (s : State) (k : Vector Bool 16) : (s.setKey k).draws = s.draws := rfl
@[simp] theorem setKey_getV (s : State) (k : Vector Bool 16) (z : Nib) : (s.setKey k).getV z = s.getV z := rfl
@[simp] theorem setKey_readMem (s : State) (k : Vector Bool 16) (a : Nat) : (s.setKey k).readMem a = s.readMem a := rfl
@[simp] theorem setKey_dataAddr (s : State) (k : Vector Bool 16) (j : Nat) : (s.setKey k).dataAddr j = s.dataAddr j := rfl
@[simp] theorem setKey_rndByte (s : State) (k : Vector Bool 16) : (s.setKey k).rndByte = s.rndByte := rfl
@[simp] theorem setKey_pc0 (s : State) (k : Vector Bool 16) : (s.setKey k).pc0 = s.pc0 := rfl

/-! ### setDirty -/

@[simp] theorem setDirty_v (s : State) (b : Bool) : (s.setDirty b).v = s.v := rfl
@[simp] theorem setDirty_i (s : State) (b : Bool) : (s.setDirty b).i = s.i := rfl
@[simp] theorem setDirty_pc (s : State) (b : Bool) : (s.setDirty b).pc = s.pc := rfl
@[simp] theorem setDirty_stack (s : State) (b : Bool) : (s.setDirty b).stack = s.stack := rfl
@[simp] theorem setDirty_sp (s : State) (b : Bool) : (s.setDirty b).sp = s.sp := rfl
@[simp] theorem setDirty_dt (s : State) (b : Bool) : (s.setDirty b).dt = s.dt := rfl
@[simp] theorem setDirty_st (s : State) (b : Bool) : (s.setDirty b).st = s.st := rfl
@[simp] theorem setDirty_pix (s : State) (b : Bool) : (s.setDirty b).pix = s.pix := rfl
@[simp] theorem setDirty_key (s : State) (b : Bool) : (s.setDirty b).key = s.key := rfl
@[simp] theorem setDirty_dirty (s : State) (b : Bool) : (s.setDirty b).dirty = b := rfl
@[simp] theorem setDirty_mem (s : State) (b : Bool) : (s.setDirty b).mem = s.mem := rfl
@[simp] theorem setDirty_draws (s : State) (b : Bool) : (s.setDirty b).draws = s.draws := rfl
@[simp] theorem setDirty_getV (s : State) (b : Bool) (z : Nib) : (s.setDirty b).getV z = s.getV z := rfl
@[simp] theorem setDirty_readMem (s : State) (b : Bool) (a : Nat) : (s.setDirty b).readMem a = s.readMem a := rfl
@[simp] theorem setDirty_dataAddr (s : State) (b : Bool) (j : Nat) : (s.setDirty b).dataAddr j = s.dataAddr j := rfl
@[simp] theorem setDirty_keyPressed (s : State) (b : Bool) (z : Nib) : (s.setDirty b).keyPressed z = s.keyPressed z := rfl
@[simp] theorem setDirty_lowestKey (s : State) (b : Bool) : (s.setDirty b).lowestKey = s.lowestKey := rfl
@[simp] theorem setDirty_rndByte (s : State) (b : Bool) : (s.setDirty b).rndByte = s.rndByte := rfl
@[simp] theorem setDirty_pc0 (s : State) (b : Bool) : (s.setDirty b).pc0 = s.pc0 := rfl

/-! ### setMem -/

@[simp] theorem setMem_v (s : State) (m : Memory) : (s.setMem m).v = s.v := rfl
@[simp] theorem setMem_i (s : State) (m : Memory) : (s.setMem m).i = s.i := rfl
@[simp] theorem setMem_pc (s : State) (m : Memory) : (s.setMem m).pc = s.pc := rfl
@[simp] theorem setMem_stack (s : State) (m : Memory) : (s.setMem m).stack = s.stack := rfl
@[simp] theorem setMem_sp (s : State) (m : Memory) : (s.setMem m).sp = s.sp := rfl
@[simp] theorem setMem_dt (s : State) (m : Memory) : (s.setMem m).dt = s.dt := rfl
@[simp] theorem setMem_st (s : State) (m : Memory) : (s.setMem m).st = s.st := rfl
@[simp] theorem setMem_pix (s : State) (m : Memory) : (s.setMem m).pix = s.pix := rfl
@[simp] theorem setMem_key (s : State) (m : Memory) : (s.setMem m).key = s.key := rfl
@[simp] theorem setMem_dirty (s : State) (m : Memory) : (s.setMem m).dirty = s.dirty := rfl
@[simp] theorem setMem_mem (s : State) (m : Memory) : (s.setMem m).mem = m := rfl
@[simp] theorem setMem_draws (s : State) (m : Memory) : (s.setMem m).draws = s.draws := rfl
@[simp] theorem setMem_getV (s : State) (m : Memory) (z : Nib) : (s.setMem m).getV z = s.getV z := rfl
@[simp] theorem setMem_dataAddr (s : State) (m : Memory) (j : Nat) : (s.setMem m).dataAddr j = s.dataAddr j := rfl
@[simp] theorem setMem_keyPressed (s : State) (m : Memory) (z : Nib) : (s.setMem m).keyPressed z = s.keyPressed z := rfl
@[simp] theorem setMem_lowestKey (s : State) (m : Memory) : (s.setMem m).lowestKey = s.lowestKey := rfl
@[simp] theorem setMem_rndByte (s : State) (m : Memory) : (s.setMem m).rndByte = s.rndByte := rfl
@[simp] theorem setMem_pc0 (s : State) (m : Memory) : (s.setMem m).pc0 = s.pc0 := rfl

/-! ### setDraws -/

@[simp] theorem setDraws_v (s : State) (n : Nat) : (s.setDraws n).v = s.v := rfl
@[simp] theorem setDraws_i (s : State) (n : Nat) : (s.setDraws n).i = s.i := rfl
@[simp] theorem setDraws_pc (s : State) (n : Nat) : (s.setDraws n).pc = s.pc := rfl
@[simp] theorem setDraws_stack (s : State) (n : Nat) : (s.setDraws n).stack = s.stack := rfl
@[simp] theorem setDraws_sp (s : State) (n : Nat) : (s.setDraws n).sp = s.sp := rfl
@[simp] theorem setDraws_dt (s : State) (n : Nat) : (s.setDraws n).dt = s.dt := rfl
@[simp] theorem setDraws_st (s : State) (n : Nat) : (s.setDraws n).st = s.st := rfl
@[simp] theorem setDraws_pix (s : State) (n : Nat) : (s.setDraws n).pix = s.pix := rfl
@[simp] theorem setDraws_key (s : State) (n : Nat) : (s.setDraws n).key = s.key := rfl
@[simp] theorem setDraws_dirty (s : State) (n : Nat) : (s.setDraws n).dirty = s.dirty := rfl
@[simp] theorem setDraws_mem (s : State) (n : Nat) : (s.setDraws n).mem = s.mem := rfl
@[simp] theorem setDraws_draws (s : State) (n : Nat) : (s.setDraws n).draws = n := rfl
@[simp] theorem setDraws_getV (s : State) (n : Nat) (z : Nib) : (s.setDraws n).getV z = s.getV z := rfl
@[simp] theorem setDraws_readMem (s : State) (n : Nat) (a : Nat) : (s.setDraws n).readMem a = s.readMem a := rfl
@[simp] theorem setDraws_dataAddr (s : State) (n : Nat) (j : Nat) : (s.setDraws n).dataAddr j = s.dataAddr j := rfl
@[simp] theorem setDraws_keyPressed (s : State) (n : Nat) (z : Nib) : (s.setDraws n).keyPressed z = s.keyPressed z := rfl
@[simp] theorem setDraws_lowestKey (s : State) (n : Nat) : (s.setDraws n).lowestKey = s.lowestKey := rfl
@[simp] theorem setDraws_pc0 (s : State) (n : Nat) : (s.setDraws n).pc0 = s.pc0 := rfl

end Sys2Proof.Machine.State
end

