-- ==== Sys2Proof/Laws/Memory.lean ====
section
/-! SUPPORT. Memory: what a read gives after a write, that every operation keeps the canonical form, and that two
canonical memories which read alike are equal. -/

namespace Sys2Proof.Machine

theorem memAddr_lt (a : Nat) : memAddr a < Config.memSize := Nat.mod_lt _ (by decide)

@[simp] theorem memAddr_memAddr (a : Nat) : memAddr (memAddr a) = memAddr a := Nat.mod_mod _ _

@[simp] theorem Memory.read_memAddr (m : Memory) (a : Nat) : m.read (memAddr a) = m.read a := by
  simp [Memory.read]

@[simp] theorem State.readMem_memAddr (s : State) (a : Nat) : s.readMem (memAddr a) = s.readMem a :=
  Memory.read_memAddr _ _

theorem State.readMem_congr (s : State) {a b : Nat} (h : memAddr a = memAddr b) : s.readMem a = s.readMem b := by
  rw [← State.readMem_memAddr s a, h, State.readMem_memAddr]

namespace Memory

theorem wfFrom_mono {m : Memory} {lo lo' : Nat} (h : wfFrom lo m = true) (hl : lo' ≤ lo) : wfFrom lo' m = true := by
  cases m with
  | nil => rfl
  | cons c m =>
    simp only [wfFrom, Bool.and_eq_true, decide_eq_true_eq] at h ⊢
    exact ⟨⟨⟨by omega, h.1.1.2⟩, h.1.2⟩, h.2⟩

/-- Below the first listed address everything reads as unlisted. -/
theorem lookup_below {m : Memory} {lo a : Nat} (h : wfFrom lo m = true) (ha : a < lo) : lookup m a = unlisted a := by
  induction m generalizing lo with
  | nil => rfl
  | cons c m ih =>
    simp only [wfFrom, Bool.and_eq_true, decide_eq_true_eq] at h
    have hne : a ≠ c.1 := by omega
    simp only [lookup, hne, if_false]
    exact ih h.2 (by omega)

theorem lookup_cell_append (a b x : _) (m : Memory) :
    lookup (cell a b ++ m) x = if x = a ∧ b ≠ unlisted a then b else lookup m x := by
  by_cases hb : b = unlisted a <;> by_cases hx : x = a <;> simp [cell, hb, hx, lookup]

/-- A read after a write, in a canonical memory. -/
theorem lookup_insert {m : Memory} {lo : Nat} (h : wfFrom lo m = true) (a : Nat) (b : Byte) (x : Nat) :
    lookup (insert m a b) x = if x = a then b else lookup m x := by
  induction m generalizing lo with
  | nil =>
    by_cases hb : b = unlisted a <;> by_cases hx : x = a <;> simp [insert, cell, hb, hx, lookup]
  | cons c m ih =>
    obtain ⟨k, c⟩ := c
    simp only [wfFrom, Bool.and_eq_true, decide_eq_true_eq] at h
    simp only [insert]
    split
    · rename_i hlt
      rw [lookup_cell_append]
      by_cases hx : x = a
      · by_cases hb : b = unlisted a
        · have hm : lookup m a = unlisted a := lookup_below h.2 (by omega)
          simp [hx, hb, lookup, hm, show a ≠ k by omega]
        · simp [hx, hb]
      · simp [hx]
    · split
      · rename_i hk
        subst hk
        rw [lookup_cell_append]
        by_cases hx : x = a
        · by_cases hb : b = unlisted a
          · have hm : lookup m a = unlisted a := lookup_below h.2 (by omega)
            simp [hx, hb, hm]
          · simp [hx, hb]
        · simp [hx, lookup]
      · rename_i hne
        simp only [lookup, ih h.2]
        by_cases hx : x = a
        · simp [hx, hne]
        · simp [hx]

theorem wfFrom_cell_append {a lo : Nat} {b : Byte} {m : Memory} (hlo : lo ≤ a) (ha : a < Config.memSize)
    (h : wfFrom (a + 1) m = true) : wfFrom lo (cell a b ++ m) = true := by
  by_cases hb : b = unlisted a
  · simpa [cell, hb] using wfFrom_mono h (by omega)
  · simp [cell, hb, wfFrom, hlo, ha, h]

/-- Putting a byte keeps the canonical form. -/
theorem wfFrom_insert {m : Memory} {lo a : Nat} (b : Byte) (h : wfFrom lo m = true) (hlo : lo ≤ a)
    (ha : a < Config.memSize) : wfFrom lo (insert m a b) = true := by
  induction m generalizing lo with
  | nil => simpa [insert] using wfFrom_cell_append (b := b) (m := []) hlo ha rfl
  | cons c m ih =>
    obtain ⟨k, c⟩ := c
    have h' := h
    simp only [wfFrom, Bool.and_eq_true, decide_eq_true_eq] at h
    simp only [insert]
    split
    · refine wfFrom_cell_append hlo ha ?_
      simp only [wfFrom, Bool.and_eq_true, decide_eq_true_eq]
      exact ⟨⟨⟨by omega, h.1.1.2⟩, h.1.2⟩, h.2⟩
    · split
      · rename_i hk
        subst hk
        exact wfFrom_cell_append hlo ha h.2
      · simp only [wfFrom, Bool.and_eq_true, decide_eq_true_eq]
        exact ⟨h.1, ih h.2 (by omega)⟩

/-- `MemWrite` keeps the canonical form. -/
theorem wf_write {m : Memory} (a : Nat) (b : Byte) (h : m.wf = true) : (m.write a b).wf = true :=
  wfFrom_insert b h (Nat.zero_le _) (memAddr_lt a)

/-- `MemRead` after `MemWrite`, for every pair of addresses. -/
theorem read_write {m : Memory} (h : m.wf = true) (a : Nat) (b : Byte) (x : Nat) :
    (m.write a b).read x = if memAddr x = memAddr a then b else m.read x :=
  lookup_insert h _ _ _

/-- Listed entries are inside M. -/
theorem lookup_ge {m : Memory} {lo a : Nat} (h : wfFrom lo m = true) (ha : Config.memSize ≤ a) :
    lookup m a = unlisted a := by
  induction m generalizing lo with
  | nil => rfl
  | cons c m ih =>
    simp only [wfFrom, Bool.and_eq_true, decide_eq_true_eq] at h
    simp only [lookup, show a ≠ c.1 by omega, if_false]
    exact ih h.2

theorem eq_of_lookup {m m' : Memory} {lo : Nat} (h : wfFrom lo m = true) (h' : wfFrom lo m' = true)
    (hr : ∀ a, lo ≤ a → lookup m a = lookup m' a) : m = m' := by
  induction m generalizing m' lo with
  | nil =>
    cases m' with
    | nil => rfl
    | cons c m' =>
      simp only [wfFrom, Bool.and_eq_true, decide_eq_true_eq] at h'
      have := hr c.1 h'.1.1.1
      simp [lookup] at this
      exact absurd this.symm h'.1.2
  | cons c m ih =>
    obtain ⟨k, c⟩ := c
    have hw := h
    simp only [wfFrom, Bool.and_eq_true, decide_eq_true_eq] at h
    cases m' with
    | nil =>
      have := hr k h.1.1.1
      simp [lookup] at this
      exact absurd this h.1.2
    | cons d m' =>
      obtain ⟨k', d⟩ := d
      have hw' := h'
      simp only [wfFrom, Bool.and_eq_true, decide_eq_true_eq] at h'
      have hk : k = k' := by
        rcases Nat.lt_trichotomy k k' with hlt | heq | hgt
        · have := hr k h.1.1.1
          rw [lookup_below (m := (k', d) :: m') (lo := k') (by simpa [wfFrom, h'.1.1.2, h'.1.2] using h'.2) hlt] at this
          simp [lookup] at this
          exact absurd this h.1.2
        · exact heq
        · have := hr k' h'.1.1.1
          rw [lookup_below (m := (k, c) :: m) (lo := k) (by simpa [wfFrom, h.1.1.2, h.1.2] using h.2) hgt] at this
          simp [lookup] at this
          exact absurd this.symm h'.1.2
      subst hk
      have hc : c = d := by simpa [lookup] using hr k h.1.1.1
      subst hc
      rw [ih h.2 h'.2 fun a ha => by simpa [lookup, show a ≠ k by omega] using hr a (by omega)]

/-- Canonical memories that read alike at every address of M are equal data. -/
theorem ext {m m' : Memory} (h : m.wf = true) (h' : m'.wf = true) (hr : ∀ a, m.read a = m'.read a) : m = m' := by
  refine eq_of_lookup h h' fun a _ => ?_
  by_cases ha : a < Config.memSize
  · simpa [read, memAddr, Nat.mod_eq_of_lt ha] using hr a
  · rw [lookup_ge h (by omega), lookup_ge h' (by omega)]

end Memory

end Sys2Proof.Machine
end

