-- ==== Sys2Proof/Laws/Ops.lean ====
section
/-! SUPPORT. What each shared operation over registers, memory, the call stack, the timers and the keys can do, said once;
later proofs cite these lemmas and do not unfold the operations. -/

namespace Sys2Proof.Machine.State

/-! ### V registers -/

/-- A read of V after a write of V. -/
theorem getV_setV (s : State) (x z : Nib) (b : Byte) : (s.setV x b).getV z = if z = x then b else s.getV z := by
  simp only [getV, setV, Vector.getElem_set, BitVec.toNat_inj, eq_comm]

@[simp] theorem getV_setV_same (s : State) (x : Nib) (b : Byte) : (s.setV x b).getV x = b := by
  simp [getV_setV]

theorem getV_setV_ne (s : State) {x z : Nib} (b : Byte) (h : z ≠ x) : (s.setV x b).getV z = s.getV z := by
  simp [getV_setV, h]

/-- States agree when their fields do; V is compared register by register. -/
theorem v_ext {s t : State} (h : ∀ z, t.getV z = s.getV z) : t.v = s.v := by
  apply Vector.ext
  intro k hk
  have := h (BitVec.ofNat 4 k)
  simpa [getV, Nat.mod_eq_of_lt hk] using this

/-- The result first, the flag last (R112). -/
theorem getV_writeWithFlag (s : State) (x z : Nib) (r : Byte) (c : Bool) :
    (s.writeWithFlag x r c).getV z = if z = VF then flagByte c else if z = x then r else s.getV z := by
  simp [writeWithFlag, setFlag, getV_setV]

theorem getV_setFlag (s : State) (z : Nib) (c : Bool) :
    (s.setFlag c).getV z = if z = VF then flagByte c else s.getV z := by
  simp [setFlag, getV_setV]

@[simp] theorem setFlag_i (s : State) (c : Bool) : (s.setFlag c).i = s.i := rfl
@[simp] theorem setFlag_pc (s : State) (c : Bool) : (s.setFlag c).pc = s.pc := rfl
@[simp] theorem setFlag_stack (s : State) (c : Bool) : (s.setFlag c).stack = s.stack := rfl
@[simp] theorem setFlag_sp (s : State) (c : Bool) : (s.setFlag c).sp = s.sp := rfl
@[simp] theorem setFlag_dt (s : State) (c : Bool) : (s.setFlag c).dt = s.dt := rfl
@[simp] theorem setFlag_st (s : State) (c : Bool) : (s.setFlag c).st = s.st := rfl
@[simp] theorem setFlag_pix (s : State) (c : Bool) : (s.setFlag c).pix = s.pix := rfl
@[simp] theorem setFlag_key (s : State) (c : Bool) : (s.setFlag c).key = s.key := rfl
@[simp] theorem setFlag_dirty (s : State) (c : Bool) : (s.setFlag c).dirty = s.dirty := rfl
@[simp] theorem setFlag_mem (s : State) (c : Bool) : (s.setFlag c).mem = s.mem := rfl
@[simp] theorem setFlag_draws (s : State) (c : Bool) : (s.setFlag c).draws = s.draws := rfl
@[simp] theorem setFlag_readMem (s : State) (c : Bool) (a : Nat) : (s.setFlag c).readMem a = s.readMem a := rfl

@[simp] theorem writeWithFlag_i (s : State) (x : Nib) (r : Byte) (c : Bool) : (s.writeWithFlag x r c).i = s.i := rfl
@[simp] theorem writeWithFlag_pc (s : State) (x : Nib) (r : Byte) (c : Bool) : (s.writeWithFlag x r c).pc = s.pc := rfl
@[simp] theorem writeWithFlag_stack (s : State) (x : Nib) (r : Byte) (c : Bool) : (s.writeWithFlag x r c).stack = s.stack := rfl
@[simp] theorem writeWithFlag_sp (s : State) (x : Nib) (r : Byte) (c : Bool) : (s.writeWithFlag x r c).sp = s.sp := rfl
@[simp] theorem writeWithFlag_dt (s : State) (x : Nib) (r : Byte) (c : Bool) : (s.writeWithFlag x r c).dt = s.dt := rfl
@[simp] theorem writeWithFlag_st (s : State) (x : Nib) (r : Byte) (c : Bool) : (s.writeWithFlag x r c).st = s.st := rfl
@[simp] theorem writeWithFlag_pix (s : State) (x : Nib) (r : Byte) (c : Bool) : (s.writeWithFlag x r c).pix = s.pix := rfl
@[simp] theorem writeWithFlag_key (s : State) (x : Nib) (r : Byte) (c : Bool) : (s.writeWithFlag x r c).key = s.key := rfl
@[simp] theorem writeWithFlag_dirty (s : State) (x : Nib) (r : Byte) (c : Bool) : (s.writeWithFlag x r c).dirty = s.dirty := rfl
@[simp] theorem writeWithFlag_mem (s : State) (x : Nib) (r : Byte) (c : Bool) : (s.writeWithFlag x r c).mem = s.mem := rfl
@[simp] theorem writeWithFlag_draws (s : State) (x : Nib) (r : Byte) (c : Bool) : (s.writeWithFlag x r c).draws = s.draws := rfl
@[simp] theorem writeWithFlag_readMem (s : State) (x : Nib) (r : Byte) (c : Bool) (a : Nat) : (s.writeWithFlag x r c).readMem a = s.readMem a := rfl

/-! ### Memory through the state -/

/-- Reading a byte after storing a byte. -/
theorem readMem_writeMem {s : State} (h : s.mem.wf = true) (a : Nat) (b : Byte) (x : Nat) :
    (s.writeMem a b).readMem x = if memAddr x = memAddr a then b else s.readMem x :=
  Memory.read_write h a b x

/-- Storing a byte keeps the canonical form. -/
theorem wf_writeMem {s : State} (h : s.mem.wf = true) (a : Nat) (b : Byte) : (s.writeMem a b).mem.wf = true :=
  Memory.wf_write a b h

@[simp] theorem writeMem_v (s : State) (a : Nat) (b : Byte) : (s.writeMem a b).v = s.v := rfl
@[simp] theorem writeMem_i (s : State) (a : Nat) (b : Byte) : (s.writeMem a b).i = s.i := rfl
@[simp] theorem writeMem_pc (s : State) (a : Nat) (b : Byte) : (s.writeMem a b).pc = s.pc := rfl
@[simp] theorem writeMem_stack (s : State) (a : Nat) (b : Byte) : (s.writeMem a b).stack = s.stack := rfl
@[simp] theorem writeMem_sp (s : State) (a : Nat) (b : Byte) : (s.writeMem a b).sp = s.sp := rfl
@[simp] theorem writeMem_dt (s : State) (a : Nat) (b : Byte) : (s.writeMem a b).dt = s.dt := rfl
@[simp] theorem writeMem_st (s : State) (a : Nat) (b : Byte) : (s.writeMem a b).st = s.st := rfl
@[simp] theorem writeMem_pix (s : State) (a : Nat) (b : Byte) : (s.writeMem a b).pix = s.pix := rfl
@[simp] theorem writeMem_key (s : State) (a : Nat) (b : Byte) : (s.writeMem a b).key = s.key := rfl
@[simp] theorem writeMem_dirty (s : State) (a : Nat) (b : Byte) : (s.writeMem a b).dirty = s.dirty := rfl
@[simp] theorem writeMem_draws (s : State) (a : Nat) (b : Byte) : (s.writeMem a b).draws = s.draws := rfl
@[simp] theorem writeMem_getV (s : State) (a : Nat) (b : Byte) (z : Nib) : (s.writeMem a b).getV z = s.getV z := rfl
@[simp] theorem writeMem_dataAddr (s : State) (a : Nat) (b : Byte) (j : Nat) : (s.writeMem a b).dataAddr j = s.dataAddr j := rfl

/-- Storing bytes writes memory and nothing else. -/
theorem storeBytes_eq_setMem (s : State) (a : Nat) (bs : List Byte) :
    s.storeBytes a bs = s.setMem (s.storeBytes a bs).mem := by
  induction bs generalizing s a with
  | nil => rfl
  | cons b bs ih =>
    rw [storeBytes, ih]
    rfl

@[simp] theorem storeBytes_v (s : State) (a : Nat) (bs : List Byte) : (s.storeBytes a bs).v = s.v := by
  rw [storeBytes_eq_setMem]; rfl
@[simp] theorem storeBytes_i (s : State) (a : Nat) (bs : List Byte) : (s.storeBytes a bs).i = s.i := by
  rw [storeBytes_eq_setMem]; rfl
@[simp] theorem storeBytes_pc (s : State) (a : Nat) (bs : List Byte) : (s.storeBytes a bs).pc = s.pc := by
  rw [storeBytes_eq_setMem]; rfl
@[simp] theorem storeBytes_stack (s : State) (a : Nat) (bs : List Byte) : (s.storeBytes a bs).stack = s.stack := by
  rw [storeBytes_eq_setMem]; rfl
@[simp] theorem storeBytes_sp (s : State) (a : Nat) (bs : List Byte) : (s.storeBytes a bs).sp = s.sp := by
  rw [storeBytes_eq_setMem]; rfl
@[simp] theorem storeBytes_dt (s : State) (a : Nat) (bs : List Byte) : (s.storeBytes a bs).dt = s.dt := by
  rw [storeBytes_eq_setMem]; rfl
@[simp] theorem storeBytes_st (s : State) (a : Nat) (bs : List Byte) : (s.storeBytes a bs).st = s.st := by
  rw [storeBytes_eq_setMem]; rfl
@[simp] theorem storeBytes_pix (s : State) (a : Nat) (bs : List Byte) : (s.storeBytes a bs).pix = s.pix := by
  rw [storeBytes_eq_setMem]; rfl
@[simp] theorem storeBytes_key (s : State) (a : Nat) (bs : List Byte) : (s.storeBytes a bs).key = s.key := by
  rw [storeBytes_eq_setMem]; rfl
@[simp] theorem storeBytes_dirty (s : State) (a : Nat) (bs : List Byte) : (s.storeBytes a bs).dirty = s.dirty := by
  rw [storeBytes_eq_setMem]; rfl
@[simp] theorem storeBytes_draws (s : State) (a : Nat) (bs : List Byte) : (s.storeBytes a bs).draws = s.draws := by
  rw [storeBytes_eq_setMem]; rfl
@[simp] theorem storeBytes_getV (s : State) (a : Nat) (bs : List Byte) (z : Nib) :
    (s.storeBytes a bs).getV z = s.getV z := by
  rw [storeBytes_eq_setMem]; rfl

theorem wf_storeBytes {s : State} (h : s.mem.wf = true) (a : Nat) (bs : List Byte) :
    (s.storeBytes a bs).mem.wf = true := by
  induction bs generalizing s a with
  | nil => exact h
  | cons b bs ih => exact ih (wf_writeMem h a b) _

/-- A byte that is none of the stored ones reads as before. -/
theorem readMem_storeBytes_outside {s : State} (h : s.mem.wf = true) (a : Nat) (bs : List Byte) {x : Nat}
    (hx : ∀ k, k < bs.length → memAddr x ≠ memAddr (a + k)) : (s.storeBytes a bs).readMem x = s.readMem x := by
  induction bs generalizing s a with
  | nil => rfl
  | cons b bs ih =>
    rw [storeBytes, ih (wf_writeMem h a b)]
    · rw [readMem_writeMem h, if_neg]
      simpa using hx 0 (by simp)
    · intro k hk
      have := hx (k + 1) (by simpa using hk)
      rwa [show a + (k + 1) = a + 1 + k by omega] at this

/-- The stored bytes, while they fit into M without overlapping. -/
theorem readMem_storeBytes {s : State} (h : s.mem.wf = true) (a : Nat) (bs : List Byte)
    (hl : bs.length ≤ Config.memSize) {k : Nat} (hk : k < bs.length) :
    (s.storeBytes a bs).readMem (a + k) = bs[k] := by
  induction bs generalizing s a k with
  | nil => simp at hk
  | cons b bs ih =>
    simp only [List.length_cons] at hl hk
    cases k with
    | zero =>
      rw [storeBytes, readMem_storeBytes_outside (wf_writeMem h a b), readMem_writeMem h]
      · simp
      · intro k hk'
        simp only [memAddr, Config.memSize] at hl ⊢
        omega
    | succ k =>
      have := ih (wf_writeMem h a b) (a + 1) (by omega) (k := k) (by omega)
      simpa [storeBytes, show a + (k + 1) = a + 1 + k by omega] using this

/-! ### Register transfers (R124, R125) -/

/-- Storing registers writes memory and nothing else. -/
theorem storeRegs_eq_setMem (n : Nat) (s : State) : storeRegs n s = s.setMem (storeRegs n s).mem := by
  induction n with
  | zero => rfl
  | succ n ih =>
    simp only [storeRegs, writeMem]
    rw [ih]
    rfl

@[simp] theorem storeRegs_v (n : Nat) (s : State) : (storeRegs n s).v = s.v := by
  rw [storeRegs_eq_setMem]; rfl
@[simp] theorem storeRegs_i (n : Nat) (s : State) : (storeRegs n s).i = s.i := by
  rw [storeRegs_eq_setMem]; rfl
@[simp] theorem storeRegs_pc (n : Nat) (s : State) : (storeRegs n s).pc = s.pc := by
  rw [storeRegs_eq_setMem]; rfl
@[simp] theorem storeRegs_stack (n : Nat) (s : State) : (storeRegs n s).stack = s.stack := by
  rw [storeRegs_eq_setMem]; rfl
@[simp] theorem storeRegs_sp (n : Nat) (s : State) : (storeRegs n s).sp = s.sp := by
  rw [storeRegs_eq_setMem]; rfl
@[simp] theorem storeRegs_dt (n : Nat) (s : State) : (storeRegs n s).dt = s.dt := by
  rw [storeRegs_eq_setMem]; rfl
@[simp] theorem storeRegs_st (n : Nat) (s : State) : (storeRegs n s).st = s.st := by
  rw [storeRegs_eq_setMem]; rfl
@[simp] theorem storeRegs_pix (n : Nat) (s : State) : (storeRegs n s).pix = s.pix := by
  rw [storeRegs_eq_setMem]; rfl
@[simp] theorem storeRegs_key (n : Nat) (s : State) : (storeRegs n s).key = s.key := by
  rw [storeRegs_eq_setMem]; rfl
@[simp] theorem storeRegs_dirty (n : Nat) (s : State) : (storeRegs n s).dirty = s.dirty := by
  rw [storeRegs_eq_setMem]; rfl
@[simp] theorem storeRegs_draws (n : Nat) (s : State) : (storeRegs n s).draws = s.draws := by
  rw [storeRegs_eq_setMem]; rfl
@[simp] theorem storeRegs_getV (n : Nat) (s : State) (z : Nib) : (storeRegs n s).getV z = s.getV z := by
  rw [storeRegs_eq_setMem]; rfl
@[simp] theorem storeRegs_dataAddr (n : Nat) (s : State) (k : Nat) : (storeRegs n s).dataAddr k = s.dataAddr k := by
  rw [storeRegs_eq_setMem]; rfl

theorem wf_storeRegs {s : State} (h : s.mem.wf = true) (n : Nat) : (storeRegs n s).mem.wf = true := by
  induction n with
  | zero => exact h
  | succ n ih => exact wf_writeMem ih _ _

/-- A byte that is none of the stored ones reads as before. -/
theorem readMem_storeRegs_outside {s : State} (h : s.mem.wf = true) (n : Nat) {x : Nat}
    (hx : ∀ k, k < n → memAddr x ≠ memAddr (s.dataAddr k)) : (storeRegs n s).readMem x = s.readMem x := by
  induction n with
  | zero => rfl
  | succ n ih =>
    simp only [storeRegs]
    rw [readMem_writeMem (wf_storeRegs h n), if_neg]
    · exact ih fun k hk => hx k (by omega)
    · simpa using hx n (by omega)

/-- The byte stored for register k. -/
theorem readMem_storeRegs {s : State} (h : s.mem.wf = true) {n k : Nat} (hn : n ≤ 16) (hk : k < n) :
    (storeRegs n s).readMem (s.dataAddr k) = s.getV (BitVec.ofNat 4 k) := by
  induction n with
  | zero => omega
  | succ n ih =>
    simp only [storeRegs]
    rw [readMem_writeMem (wf_storeRegs h n)]
    by_cases hkn : k = n
    · simp [hkn]
    · rw [if_neg, ih (by omega) (by omega)]
      simp only [dataAddr, memAddr, Config.memSize, storeRegs_i]
      omega

/-- Loading registers writes V and nothing else. -/
theorem loadRegs_eq_v (n : Nat) (s : State) : loadRegs n s = { s with v := (loadRegs n s).v } := by
  induction n with
  | zero => rfl
  | succ n ih =>
    simp only [loadRegs, setV]
    rw [ih]

@[simp] theorem loadRegs_i (n : Nat) (s : State) : (loadRegs n s).i = s.i := by
  rw [loadRegs_eq_v]
@[simp] theorem loadRegs_pc (n : Nat) (s : State) : (loadRegs n s).pc = s.pc := by
  rw [loadRegs_eq_v]
@[simp] theorem loadRegs_stack (n : Nat) (s : State) : (loadRegs n s).stack = s.stack := by
  rw [loadRegs_eq_v]
@[simp] theorem loadRegs_sp (n : Nat) (s : State) : (loadRegs n s).sp = s.sp := by
  rw [loadRegs_eq_v]
@[simp] theorem loadRegs_dt (n : Nat) (s : State) : (loadRegs n s).dt = s.dt := by
  rw [loadRegs_eq_v]
@[simp] theorem loadRegs_st (n : Nat) (s : State) : (loadRegs n s).st = s.st := by
  rw [loadRegs_eq_v]
@[simp] theorem loadRegs_pix (n : Nat) (s : State) : (loadRegs n s).pix = s.pix := by
  rw [loadRegs_eq_v]
@[simp] theorem loadRegs_key (n : Nat) (s : State) : (loadRegs n s).key = s.key := by
  rw [loadRegs_eq_v]
@[simp] theorem loadRegs_dirty (n : Nat) (s : State) : (loadRegs n s).dirty = s.dirty := by
  rw [loadRegs_eq_v]
@[simp] theorem loadRegs_mem (n : Nat) (s : State) : (loadRegs n s).mem = s.mem := by
  rw [loadRegs_eq_v]
@[simp] theorem loadRegs_draws (n : Nat) (s : State) : (loadRegs n s).draws = s.draws := by
  rw [loadRegs_eq_v]
@[simp] theorem loadRegs_readMem (n : Nat) (s : State) (a : Nat) : (loadRegs n s).readMem a = s.readMem a := by
  rw [loadRegs_eq_v]; rfl
@[simp] theorem loadRegs_dataAddr (n : Nat) (s : State) (k : Nat) : (loadRegs n s).dataAddr k = s.dataAddr k := by
  rw [loadRegs_eq_v]; rfl

/-- Every register after a load of the first n. -/
theorem getV_loadRegs (s : State) {n : Nat} (hn : n ≤ 16) (z : Nib) :
    (loadRegs n s).getV z = if z.toNat < n then s.readMem (s.dataAddr z.toNat) else s.getV z := by
  induction n with
  | zero => rfl
  | succ n ih =>
    simp only [loadRegs]
    rw [getV_setV, ih (by omega)]
    have hz : z = BitVec.ofNat 4 n ↔ z.toNat = n := by
      rw [← BitVec.toNat_inj, BitVec.toNat_ofNat, Nat.mod_eq_of_lt (by omega)]
    by_cases h : z.toNat = n
    · simp [hz, h]
    · simp [hz, h, show z.toNat < n + 1 ↔ z.toNat < n by omega]

/-! ### The call stack (R15) -/

/-- Everything a push can do. -/
theorem push_cases (s : State) (w : Word) :
    (s.sp.val = 16 ∧ s.push w = none) ∨
    ∃ h : s.sp.val < 16, s.push w =
      some ((s.setStack (s.stack.set s.sp.val w h)).setSp ⟨s.sp.val + 1, by omega⟩) := by
  by_cases h : s.sp.val < 16
  · exact .inr ⟨h, by simp [push, h]⟩
  · exact .inl ⟨by omega, by simp [push, h]⟩

/-- Everything a pop can do. -/
theorem pop_cases (s : State) :
    (s.sp.val = 0 ∧ s.pop = none) ∨
    ∃ h : 0 < s.sp.val, s.pop =
      some (s.stack[s.sp.val - 1]'(by omega), s.setSp ⟨s.sp.val - 1, by omega⟩) := by
  by_cases h : 0 < s.sp.val
  · exact .inr ⟨h, by simp [pop, h]⟩
  · exact .inl ⟨by omega, by simp [pop, h]⟩

/-! ### The program counter, the fetch, the timers -/

/-- A skip changes pc only. -/
theorem skipIf_eq_setPc (s : State) (c : Bool) : s.skipIf c = s.setPc (if c then s.pc + 2 else s.pc) := by
  cases c <;> rfl

@[simp] theorem pc0_advance (s : State) : s.advance.pc0 = s.pc := by
  simp [advance, pc0]

/-- The next fetch reads a word placed at pc, for every pc (R43, R50). -/
theorem fetch_placeWord {s : State} (h : s.mem.wf = true) (op : Word) : (s.placeWord op).fetch = op := by
  have h0 := readMem_storeBytes h s.pc.toNat (bytesOfWord op) (by simp [bytesOfWord, Config.memSize]) (k := 0) (by simp [bytesOfWord])
  have h1 := readMem_storeBytes h s.pc.toNat (bytesOfWord op) (by simp [bytesOfWord, Config.memSize]) (k := 1) (by simp [bytesOfWord])
  change (s.storeBytes s.pc.toNat (bytesOfWord op)).readMem s.pc.toNat = wordHi op at h0
  change _ = wordLo op at h1
  rw [fetch, placeWord, storeBytes_pc, h0, h1, wordOfBytes_bytes]

/-- A count-down in numbers: minus one, not below zero (R83). -/
theorem toNat_countDown (b : Byte) : (countDown b).toNat = b.toNat - 1 := by
  unfold countDown
  split
  · rename_i h; simp [h]
  · rename_i h
    have : b.toNat ≠ 0 := fun hb => h (BitVec.eq_of_toNat_eq (by simpa using hb))
    rw [BitVec.toNat_sub_of_le (by simp [BitVec.le_def]; omega)]
    rfl

@[simp] theorem tickTimers_v (s : State) : s.tickTimers.v = s.v := rfl
@[simp] theorem tickTimers_i (s : State) : s.tickTimers.i = s.i := rfl
@[simp] theorem tickTimers_pc (s : State) : s.tickTimers.pc = s.pc := rfl
@[simp] theorem tickTimers_stack (s : State) : s.tickTimers.stack = s.stack := rfl
@[simp] theorem tickTimers_sp (s : State) : s.tickTimers.sp = s.sp := rfl
@[simp] theorem tickTimers_dt (s : State) : s.tickTimers.dt = countDown s.dt := rfl
@[simp] theorem tickTimers_st (s : State) : s.tickTimers.st = countDown s.st := rfl
@[simp] theorem tickTimers_pix (s : State) : s.tickTimers.pix = s.pix := rfl
@[simp] theorem tickTimers_key (s : State) : s.tickTimers.key = s.key := rfl
@[simp] theorem tickTimers_dirty (s : State) : s.tickTimers.dirty = s.dirty := rfl
@[simp] theorem tickTimers_mem (s : State) : s.tickTimers.mem = s.mem := rfl
@[simp] theorem tickTimers_draws (s : State) : s.tickTimers.draws = s.draws := rfl
@[simp] theorem endStep_v (s : State) (c : Config.TimerCoupling) : (s.endStep c).v = s.v := by
  cases c <;> rfl
@[simp] theorem endStep_i (s : State) (c : Config.TimerCoupling) : (s.endStep c).i = s.i := by
  cases c <;> rfl
@[simp] theorem endStep_pc (s : State) (c : Config.TimerCoupling) : (s.endStep c).pc = s.pc := by
  cases c <;> rfl
@[simp] theorem endStep_stack (s : State) (c : Config.TimerCoupling) : (s.endStep c).stack = s.stack := by
  cases c <;> rfl
@[simp] theorem endStep_sp (s : State) (c : Config.TimerCoupling) : (s.endStep c).sp = s.sp := by
  cases c <;> rfl
@[simp] theorem endStep_pix (s : State) (c : Config.TimerCoupling) : (s.endStep c).pix = s.pix := by
  cases c <;> rfl
@[simp] theorem endStep_key (s : State) (c : Config.TimerCoupling) : (s.endStep c).key = s.key := by
  cases c <;> rfl
@[simp] theorem endStep_dirty (s : State) (c : Config.TimerCoupling) : (s.endStep c).dirty = s.dirty := by
  cases c <;> rfl
@[simp] theorem endStep_mem (s : State) (c : Config.TimerCoupling) : (s.endStep c).mem = s.mem := by
  cases c <;> rfl
@[simp] theorem endStep_draws (s : State) (c : Config.TimerCoupling) : (s.endStep c).draws = s.draws + 1 := by
  cases c <;> rfl
@[simp] theorem endStep_perStep_dt (s : State) : (s.endStep .perStep).dt = countDown s.dt := rfl
@[simp] theorem endStep_perStep_st (s : State) : (s.endStep .perStep).st = countDown s.st := rfl
@[simp] theorem endStep_external_dt (s : State) : (s.endStep .external).dt = s.dt := rfl
@[simp] theorem endStep_external_st (s : State) : (s.endStep .external).st = s.st := rfl
@[simp] theorem endStep_getV (s : State) (c : Config.TimerCoupling) (z : Nib) : (s.endStep c).getV z = s.getV z := by
  cases c <;> rfl
@[simp] theorem endStep_readMem (s : State) (c : Config.TimerCoupling) (a : Nat) :
    (s.endStep c).readMem a = s.readMem a := by
  cases c <;> rfl

/-! ### Keys (R143) -/

/-- No key is found exactly when none is pressed. -/
theorem lowestKey_none (s : State) : s.lowestKey = none ↔ ∀ k, s.keyPressed k = false := by
  rw [lowestKey, List.find?_eq_none]
  constructor
  · intro h k
    simpa using h k (List.mem_map.2 ⟨k.toNat, List.mem_range.2 k.isLt, by simp⟩)
  · intro h k _
    simp [h k]

end Sys2Proof.Machine.State
end

