-- ==== Sys2Proof/Laws/Display.lean ====
section
/-! SUPPORT. What the draw unit does (spec/44_display.md R131, R132): it toggles exactly the cells under set sprite bits, and it
collides exactly when one of them was on. -/

namespace Sys2Proof.Machine

@[simp] theorem Grid.get_off (cx cy : Nat) : Grid.off.get cx cy = false := by
  simp [Grid.get, Grid.off]

/-- A cell after one toggle. -/
theorem Grid.get_toggle (g : Grid) (a b x y : Nat) :
    (g.toggle a b).get x y = if x % 64 = a % 64 ∧ y % 32 = b % 32 then !(g.get x y) else g.get x y := by
  simp only [Grid.toggle, Grid.get, Vector.getElem_set]
  by_cases hx : a % 64 = x % 64
  · by_cases hy : b % 32 = y % 32
    · simp [hx, hy]
    · simp [hx, hy, Ne.symm hy]
  · simp [hx, Ne.symm hx]

/-- A grid is what its cells are. -/
theorem Grid.ext {g g' : Grid} (h : ∀ cx cy, cx < 64 → cy < 32 → g.get cx cy = g'.get cx cy) : g = g' := by
  apply Vector.ext
  intro cx hx
  apply Vector.ext
  intro cy hy
  simpa [Grid.get, Nat.mod_eq_of_lt hx, Nat.mod_eq_of_lt hy] using h cx cy hx hy

/-- The cells of the first m columns of one sprite row under set bits. -/
def InRow (vx vy b : Byte) (row m cx cy : Nat) : Prop :=
  ∃ col, col < m ∧ b.getLsbD (7 - col) = true ∧ cx % 64 = (vx.toNat + col) % 64 ∧ cy % 32 = (vy.toNat + row) % 32

theorem InRow_succ (vx vy b : Byte) (row m cx cy : Nat) :
    InRow vx vy b row (m + 1) cx cy ↔ InRow vx vy b row m cx cy ∨
      (b.getLsbD (7 - m) = true ∧ cx % 64 = (vx.toNat + m) % 64 ∧ cy % 32 = (vy.toNat + row) % 32) := by
  constructor
  · rintro ⟨col, h, h'⟩
    rcases Nat.lt_succ_iff_lt_or_eq.1 h with h | rfl
    · exact .inl ⟨col, h, h'⟩
    · exact .inr h'
  · rintro (⟨col, h, h'⟩ | h)
    · exact ⟨col, by omega, h'⟩
    · exact ⟨m, by omega, h⟩

/-- What drawing the first m columns of a row does. -/
structure DrawnRow (vx vy b : Byte) (row m : Nat) (acc acc' : DrawAcc) : Prop where
  toggled : ∀ cx cy, InRow vx vy b row m cx cy → acc'.pix.get cx cy = !(acc.pix.get cx cy)
  kept : ∀ cx cy, ¬InRow vx vy b row m cx cy → acc'.pix.get cx cy = acc.pix.get cx cy
  hit : acc'.hit = true ↔ acc.hit = true ∨ ∃ cx cy, InRow vx vy b row m cx cy ∧ acc.pix.get cx cy = true

theorem Grid.get_congr (g : Grid) {a b x y : Nat} (hx : x % 64 = a % 64) (hy : y % 32 = b % 32) :
    g.get x y = g.get a b := by
  simp only [Grid.get, hx, hy]

theorem drawnRow_foldl (vx vy b : Byte) (row m : Nat) (hm : m ≤ 8) (acc : DrawAcc) :
    DrawnRow vx vy b row m acc ((List.range m).foldl (drawBit vx vy b row) acc) := by
  induction m with
  | zero =>
    refine ⟨fun _ _ h => ?_, fun _ _ _ => rfl, ?_⟩
    · obtain ⟨_, h, _⟩ := h
      omega
    · constructor
      · exact .inl
      · rintro (h | ⟨_, _, ⟨_, h, _⟩, _⟩)
        · exact h
        · omega
  | succ m ih =>
    specialize ih (by omega)
    rw [List.range_succ, List.foldl_append]
    simp only [List.foldl_cons, List.foldl_nil]
    generalize (List.range m).foldl (drawBit vx vy b row) acc = mid at ih
    have fresh : ¬InRow vx vy b row m (vx.toNat + m) (vy.toNat + row) := by
      rintro ⟨col, h, _, h', _⟩
      omega
    by_cases hb : b.getLsbD (7 - m) = true
    · have here : ∀ cx cy, cx % 64 = (vx.toNat + m) % 64 → cy % 32 = (vy.toNat + row) % 32 →
          ¬InRow vx vy b row m cx cy := by
        rintro cx cy hx hy ⟨col, h, h1, h2, h3⟩
        exact fresh ⟨col, h, h1, by omega, by omega⟩
      simp only [drawBit, hb, if_true]
      refine ⟨fun cx cy h => ?_, fun cx cy h => ?_, ?_⟩
      · rcases (InRow_succ ..).1 h with h | ⟨_, hx, hy⟩
        · rw [Grid.get_toggle, if_neg, ih.toggled _ _ h]
          rintro ⟨hx, hy⟩
          exact here cx cy hx hy h
        · rw [Grid.get_toggle, if_pos ⟨hx, hy⟩, ih.kept _ _ (here cx cy hx hy)]
      · rw [InRow_succ] at h
        rw [Grid.get_toggle, if_neg, ih.kept _ _ fun h' => h (.inl h')]
        rintro ⟨hx, hy⟩
        exact h (.inr ⟨hb, hx, hy⟩)
      · rw [Bool.or_eq_true, ih.hit, ih.kept _ _ fresh, or_assoc]
        refine or_congr_right ⟨?_, ?_⟩
        · rintro (⟨cx, cy, h, h'⟩ | h)
          · exact ⟨cx, cy, (InRow_succ ..).2 (.inl h), h'⟩
          · exact ⟨_, _, (InRow_succ ..).2 (.inr ⟨hb, rfl, rfl⟩), h⟩
        · rintro ⟨cx, cy, h, h'⟩
          rcases (InRow_succ ..).1 h with h | ⟨_, hx, hy⟩
          · exact .inl ⟨cx, cy, h, h'⟩
          · exact .inr (by rwa [← Grid.get_congr _ hx hy])
    · have same : ∀ cx cy, InRow vx vy b row (m + 1) cx cy ↔ InRow vx vy b row m cx cy := by
        intro cx cy
        simp [InRow_succ, hb]
      have hstep : drawBit vx vy b row mid m = mid := by simp only [drawBit, hb]; rfl
      rw [hstep]
      exact ⟨fun cx cy h => ih.toggled cx cy ((same cx cy).1 h), fun cx cy h => ih.kept cx cy (mt (same cx cy).2 h),
        by simp only [same]; exact ih.hit⟩

/-- What one sprite row does. -/
theorem drawRow_drawn (vx vy b : Byte) (row : Nat) (acc : DrawAcc) :
    DrawnRow vx vy b row 8 acc (drawRow vx vy b row acc) :=
  drawnRow_foldl vx vy b row 8 (Nat.le_refl _) acc

namespace State

theorem InSprite_succ (s : State) (vx vy : Byte) (n cx cy : Nat) :
    s.InSprite vx vy (n + 1) (cx % 64) (cy % 32) ↔ s.InSprite vx vy n (cx % 64) (cy % 32) ∨
      InRow vx vy (s.readMem (s.dataAddr n)) n 8 cx cy := by
  constructor
  · rintro ⟨row, col, hr, hc, hb, hx, hy⟩
    rcases Nat.lt_succ_iff_lt_or_eq.1 hr with hr | rfl
    · exact .inl ⟨row, col, hr, hc, hb, hx, hy⟩
    · exact .inr ⟨col, hc, hb, hx, hy⟩
  · rintro (⟨row, col, hr, h⟩ | ⟨col, hc, hb, hx, hy⟩)
    · exact ⟨row, col, by omega, h⟩
    · exact ⟨n, col, by omega, hc, hb, hx, hy⟩

/-- What drawing the first n rows of a sprite does (R132), while no row meets another (n at most 32). -/
structure Drawn (s : State) (vx vy : Byte) (n : Nat) (acc acc' : DrawAcc) : Prop where
  toggled : ∀ cx cy, s.InSprite vx vy n (cx % 64) (cy % 32) → acc'.pix.get cx cy = !(acc.pix.get cx cy)
  kept : ∀ cx cy, ¬s.InSprite vx vy n (cx % 64) (cy % 32) → acc'.pix.get cx cy = acc.pix.get cx cy
  hit : acc'.hit = true ↔ acc.hit = true ∨
    ∃ cx cy, s.InSprite vx vy n (cx % 64) (cy % 32) ∧ acc.pix.get cx cy = true

theorem drawRows_drawn (s : State) (vx vy : Byte) (n : Nat) (hn : n ≤ 32) (acc : DrawAcc) :
    s.Drawn vx vy n acc (s.drawRows vx vy n acc) := by
  induction n with
  | zero =>
    refine ⟨?_, fun _ _ _ => rfl, ?_⟩
    · rintro _ _ ⟨_, _, h, _⟩
      omega
    · constructor
      · exact .inl
      · rintro (h | ⟨_, _, ⟨_, _, h, _⟩, _⟩)
        · exact h
        · omega
  | succ n ih =>
    specialize ih (by omega)
    have hstep : s.drawRows vx vy (n + 1) acc =
        drawRow vx vy (s.readMem (s.dataAddr n)) n (s.drawRows vx vy n acc) := by
      simp [drawRows, List.range_succ]
    rw [hstep]
    generalize s.drawRows vx vy n acc = mid at ih
    have row := drawRow_drawn vx vy (s.readMem (s.dataAddr n)) n mid
    have fresh : ∀ cx cy, InRow vx vy (s.readMem (s.dataAddr n)) n 8 cx cy →
        ¬s.InSprite vx vy n (cx % 64) (cy % 32) := by
      rintro cx cy ⟨_, _, _, _, hy⟩ ⟨r, _, hr, _, _, _, hy'⟩
      omega
    refine ⟨fun cx cy h => ?_, fun cx cy h => ?_, ?_⟩
    · rcases (InSprite_succ ..).1 h with h | h
      · rw [row.kept _ _ fun h' => fresh _ _ h' h, ih.toggled _ _ h]
      · rw [row.toggled _ _ h, ih.kept _ _ (fresh _ _ h)]
    · rw [InSprite_succ] at h
      rw [row.kept _ _ fun h' => h (.inr h'), ih.kept _ _ fun h' => h (.inl h')]
    · rw [row.hit, ih.hit, or_assoc]
      refine or_congr_right ⟨?_, ?_⟩
      · rintro (⟨cx, cy, h, h'⟩ | ⟨cx, cy, h, h'⟩)
        · exact ⟨cx, cy, (InSprite_succ ..).2 (.inl h), h'⟩
        · exact ⟨cx, cy, (InSprite_succ ..).2 (.inr h), by rwa [← ih.kept _ _ (fresh _ _ h)]⟩
      · rintro ⟨cx, cy, h, h'⟩
        rcases (InSprite_succ ..).1 h with h | h
        · exact .inl ⟨cx, cy, h, h'⟩
        · exact .inr ⟨cx, cy, h, by rwa [ih.kept _ _ (fresh _ _ h)]⟩

end State

end Sys2Proof.Machine
end

