-- ==== Sys2Proof/Laws/Step.lean ====
section
/-! SUPPORT. What a Step and a host operation can do, said once, and that no instruction is refused. -/

namespace Sys2Proof.Machine

/-- RET in full (R90). -/
theorem execRet_cases (s : State) :
    (s.sp.val = 0 ∧ execRet s = .fault (.stackUnderflow s.pc0)) ∨
    ∃ h : 0 < s.sp.val, execRet s =
      .next ((s.setSp ⟨s.sp.val - 1, by omega⟩).setPc (s.stack[s.sp.val - 1]'(by omega))) := by
  rcases s.pop_cases with ⟨h, hp⟩ | ⟨h, hp⟩
  · exact .inl ⟨h, by simp [execRet, hp, raise]⟩
  · exact .inr ⟨h, by simp [execRet, hp]⟩

/-- CALL in full (R92). -/
theorem execCall_cases (nnn : Addr12) (s : State) :
    (s.sp.val = 16 ∧ execCall nnn s = .fault (.stackOverflow s.pc0)) ∨
    ∃ h : s.sp.val < 16, execCall nnn s =
      .next (((s.setStack (s.stack.set s.sp.val s.pc h)).setSp ⟨s.sp.val + 1, by omega⟩).setPc (zext12 nnn)) := by
  rcases s.push_cases s.pc with ⟨h, hp⟩ | ⟨h, hp⟩
  · exact .inl ⟨h, by simp [execCall, hp, raise]⟩
  · exact .inr ⟨h, by simp [execCall, hp]⟩

/-- `LD Vx, K` in full (R143). -/
theorem execLdVxK_cases (x : Nib) (s : State) :
    (s.lowestKey = none ∧ execLdVxK x s = .next (s.setPc s.pc0)) ∨
    ∃ k, s.lowestKey = some k ∧ execLdVxK x s = .next (s.setV x (k.setWidth 8)) := by
  cases h : s.lowestKey with
  | none => exact .inl ⟨rfl, by simp [execLdVxK, h]⟩
  | some k => exact .inr ⟨k, rfl, by simp [execLdVxK, h]⟩

/-- Every outcome of a Step, from the outcome of the instruction it fetched (R80). -/
theorem stepWith_cases (c : Config.TimerCoupling) (s : State) :
    (∃ t, exec (decode s.fetch) s.advance = .next t ∧ stepWith c s = .next (t.endStep c)) ∨
    (∃ f, exec (decode s.fetch) s.advance = .fault f ∧ stepWith c s = .fault f) ∨
    (∃ r, exec (decode s.fetch) s.advance = .refused r ∧ stepWith c s = .refused r) := by
  cases h : exec (decode s.fetch) s.advance with
  | next t => exact .inl ⟨t, rfl, by simp [stepWith, h]⟩
  | fault f => exact .inr (.inl ⟨f, rfl, by simp [stepWith, h]⟩)
  | refused r => exact .inr (.inr ⟨r, rfl, by simp [stepWith, h]⟩)

/-- A Step that returns OK, from the instruction's own next state. -/
theorem stepWith_next {c : Config.TimerCoupling} {s t : State} (h : stepWith c s = .next t) :
    ∃ u, exec (decode s.fetch) s.advance = .next u ∧ t = u.endStep c := by
  rcases stepWith_cases c s with ⟨u, hu, hs⟩ | ⟨f, _, hs⟩ | ⟨r, _, hs⟩
  · rw [h] at hs
    cases hs
    exact ⟨u, hu, rfl⟩
  all_goals rw [h] at hs; cases hs

/-- The state after a host operation is the one it answers, or the old one. -/
theorem hostAfter_cases (op : HostOp) (s : State) :
    (∃ t v, hostOp op s = .next (t, v) ∧ hostAfter op s = t) ∨ hostAfter op s = s := by
  cases h : hostOp op s with
  | next p => exact .inl ⟨p.1, p.2, rfl, by simp [hostAfter, h]⟩
  | fault f => exact .inr (by simp [hostAfter, h])
  | refused r => exact .inr (by simp [hostAfter, h])

end Sys2Proof.Machine
end

