-- ==== Sys2Proof/Tests/Slice0.lean ====
section
/-! SUPPORT. Tests. The expected values are those of spec/95_test_vectors.md (the vector's name stands beside each) or of the
worked examples in the rules; then a witness for the hypotheses of each statement that has any. -/

namespace Sys2Proof.Tests

open Sys2Proof Sys2Proof.Machine

/-! ### Helpers -/

/-- The outcome is a next state that meets a test. -/
def nextIs (r : Result) (p : State → Bool) : Bool :=
  match r with
  | .next t => p t
  | .fault _ => false
  | .refused _ => false

/-- The outcome is this fault. -/
def faultIs (r : Result) (f : Fault) : Bool :=
  match r with
  | .next _ => false
  | .fault e => decide (e = f)
  | .refused _ => false

/-- The host operation answers a state and a value that meet a test. -/
def hostIs (r : HostResult) (p : State → HostValue → Bool) : Bool :=
  match r with
  | .next (t, v) => p t v
  | .fault _ => false
  | .refused _ => false

/-- Registers set on the reset state. -/
def regs (l : List (Nib × Byte)) : State := l.foldl (fun s p => s.setV p.1 p.2) State.reset

/-- Bytes of M set from an address on. -/
def bytesAt (a : Nat) (l : List Byte) (s : State) : State := s.storeBytes a l

/-- Keys held down. -/
def keysDown (l : List (Fin 16)) (s : State) : State := l.foldl (fun (s : State) (k : Fin 16) => s.setKey (s.key.set k.val true k.isLt)) s

/-- One Step on a word placed at pc. -/
def run (op : Word) (s : State) : Result := step (s.placeWord op)

/-- These cells are on and those are off. -/
def shows (s : State) (on off : List (Nat × Nat)) : Bool :=
  on.all (fun p => s.pix.get p.1 p.2) && off.all (fun p => !s.pix.get p.1 p.2)

/-- A grid with the listed cells on. -/
def lit (l : List (Nat × Nat)) (s : State) : State := l.foldl (fun s p => s.setPix (s.pix.toggle p.1 p.2)) s

/-! ### WellFormed: every check refuses an ill-formed term -/

theorem test_wf_refuses_known_words_as_unknown :
    (Instr.unknown 0x00E0).wf = false ∧ (Instr.unknown 0x00EE).wf = false ∧ (Instr.unknown 0x5120).wf = false ∧
    (Instr.unknown 0x8124).wf = false ∧ (Instr.unknown 0x812E).wf = false ∧ (Instr.unknown 0x9120).wf = false ∧
    (Instr.unknown 0xE19E).wf = false ∧ (Instr.unknown 0xE1A1).wf = false ∧ (Instr.unknown 0xF107).wf = false ∧
    (Instr.unknown 0xF165).wf = false ∧ (Instr.unknown 0x1234).wf = false := by decide

theorem test_wf_accepts_unknown_words :
    (Instr.unknown 0x0000).wf = true ∧ (Instr.unknown 0x5121).wf = true ∧ (Instr.unknown 0x8128).wf = true ∧
    (Instr.unknown 0x912F).wf = true ∧ (Instr.unknown 0xE1A0).wf = true ∧ (Instr.unknown 0xF1FF).wf = true := by decide

/-! ### Decoding: the words are written out from the pattern column of R65 -/

theorem test_decode_families_0_to_4 :
    decode 0x00E0 = .cls ∧ decode 0x00EE = .ret ∧ decode 0x1ABC = .jp 0xABC ∧ decode 0x2300 = .call 0x300 ∧
    decode 0x3433 = .seImm 0x4 0x33 ∧ decode 0x4F80 = .sneImm 0xF 0x80 := by decide

theorem test_decode_families_5_6_7_9 :
    decode 0x5120 = .seReg 0x1 0x2 ∧ decode 0x6A7F = .ldImm 0xA 0x7F ∧ decode 0x72FF = .addImm 0x2 0xFF ∧
    decode 0x9AB0 = .sneReg 0xA 0xB := by decide

theorem test_decode_family_8 :
    decode 0x8120 = .ldReg 0x1 0x2 ∧ decode 0x8341 = .orReg 0x3 0x4 ∧ decode 0x8562 = .andReg 0x5 0x6 ∧
    decode 0x8783 = .xorReg 0x7 0x8 ∧ decode 0x89A4 = .addReg 0x9 0xA ∧ decode 0x8BC5 = .sub 0xB 0xC ∧
    decode 0x8DE6 = .shr 0xD 0xE ∧ decode 0x8F07 = .subn 0xF 0x0 ∧ decode 0x812E = .shl 0x1 0x2 := by decide

theorem test_decode_families_A_to_E :
    decode 0xA2F0 = .ldI 0x2F0 ∧ decode 0xBFFF = .jpV0 0xFFF ∧ decode 0xC30F = .rnd 0x3 0x0F ∧
    decode 0xD12A = .drw 0x1 0x2 0xA ∧ decode 0xE59E = .skp 0x5 ∧ decode 0xEAA1 = .sknp 0xA := by decide

theorem test_decode_family_F :
    decode 0xF107 = .ldVxDt 0x1 ∧ decode 0xF30A = .ldVxK 0x3 ∧ decode 0xF215 = .ldDtVx 0x2 ∧
    decode 0xF418 = .ldStVx 0x4 ∧ decode 0xF51E = .addI 0x5 ∧ decode 0xF629 = .ldIF 0x6 ∧
    decode 0xF733 = .bcd 0x7 ∧ decode 0xF855 = .ldMemVx 0x8 ∧ decode 0xF965 = .ldVxMem 0x9 := by decide

/-- F3, F6 to F13: the near misses. -/
theorem test_decode_unknown :
    decode 0x0000 = .unknown 0x0000 ∧ decode 0x0123 = .unknown 0x0123 ∧ decode 0x01E0 = .unknown 0x01E0 ∧
    decode 0x5121 = .unknown 0x5121 ∧ decode 0x9121 = .unknown 0x9121 ∧ decode 0x8128 = .unknown 0x8128 ∧
    decode 0x812F = .unknown 0x812F ∧ decode 0xE19F = .unknown 0xE19F ∧ decode 0xF130 = .unknown 0xF130 ∧
    decode 0x00FF = .unknown 0x00FF := by decide

/-- R60: two bytes, the first the high one; a list that ends early is refused by name. -/
theorem test_decodeBytes :
    decodeBytes [0x12, 0x34, 0x56] = .ok (.jp 0x234, [0x56]) ∧ decodeBytes [] = .error .noBytes ∧
    decodeBytes [0xD1] = .error (.halfWord 0xD1) := ⟨rfl, rfl, rfl⟩

theorem test_encodeBytes :
    encodeBytes (.drw 0x1 0x2 0xA) = [0xD1, 0x2A] ∧ encodeBytes (.jp 0x234) = [0x12, 0x34] ∧
    encodeBytes (.shl 0x2 0x3) = [0x82, 0x3E] ∧ encodeBytes (.ldVxMem 0xF) = [0xFF, 0x65] := by decide

theorem test_decodeTableWord :
    decodeTableWord 16 0x8014 = some (.addReg 0x0 0x1) ∧ decodeTableWord 16 0xF255 = some (.ldMemVx 0x2) := by decide

/-- R69, the listings of spec/95_test_vectors.md Part 3. -/
theorem test_assembly :
    (decode 0x6005).assembly = "LD V0, 0x05" ∧ (decode 0x2210).assembly = "CALL 0x210" ∧
    (decode 0xF265).assembly = "LD V2, [I]" ∧ (decode 0xF229).assembly = "LD I, F(V2)" ∧
    (decode 0x0000).assembly = "DW 0x0000" := by decide

/-! ### Control transfer -/

/-- B1. -/
theorem test_jp : nextIs (run 0x1ABC State.reset) (fun t => t.pc == 0x0ABC) = true := by decide
/-- B2. -/
theorem test_jp_odd : nextIs (run 0x1201 State.reset) (fun t => t.pc == 0x0201) = true := by decide
/-- B5: the sixteenth call. -/
theorem test_call_last_slot : nextIs (run 0x2300 (State.reset.setSp 15))
    (fun t => t.stack[15] == 0x0202 && t.sp.val == 16 && t.pc == 0x0300) = true := by decide
/-- B6. -/
theorem test_call_overflow :
    faultIs (run 0x2300 (State.reset.setSp 16)) (.stackOverflow 0x0200) = true := by decide
/-- B7. -/
theorem test_ret : nextIs (run 0x00EE ((State.reset.setStack (State.reset.stack.set 1 0x0456)).setSp 2))
    (fun t => t.sp.val == 1 && t.pc == 0x0456 && t.stack[1] == 0x0456) = true := by decide
/-- B8. -/
theorem test_ret_underflow : faultIs (run 0x00EE State.reset) (.stackUnderflow 0x0200) = true := by decide
/-- B10, B11. -/
theorem test_seImm : nextIs (run 0x3433 (regs [(4, 0x33)])) (fun t => t.pc == 0x0204) = true ∧
    nextIs (run 0x3434 (regs [(4, 0x33)])) (fun t => t.pc == 0x0202) = true := by decide
/-- B22: a skip wraps. -/
theorem test_seImm_wraps : nextIs (run 0x3000 (State.reset.setPc 0xFFFC)) (fun t => t.pc == 0x0000) = true := by decide
/-- B12, B13. -/
theorem test_sneImm : nextIs (run 0x4433 (regs [(4, 0x33)])) (fun t => t.pc == 0x0202) = true ∧
    nextIs (run 0x4434 (regs [(4, 0x33)])) (fun t => t.pc == 0x0204) = true := by decide
/-- B14, B15. -/
theorem test_seReg : nextIs (run 0x5120 (regs [(1, 0x10), (2, 0x10)])) (fun t => t.pc == 0x0204) = true ∧
    nextIs (run 0x5120 (regs [(1, 0x10), (2, 0x11)])) (fun t => t.pc == 0x0202) = true := by decide
/-- B17, B18. -/
theorem test_sneReg : nextIs (run 0x9120 (regs [(1, 0x10), (2, 0x11)])) (fun t => t.pc == 0x0204) = true ∧
    nextIs (run 0x9330 (regs [(3, 0x10)])) (fun t => t.pc == 0x0202) = true := by decide
/-- B20: not reduced to 12 bits. -/
theorem test_jpV0 : nextIs (run 0xBFFF (regs [(0, 0xFF)])) (fun t => t.pc == 0x10FE) = true := by decide
/-- B21: the offset is V0 whatever the x digit. -/
theorem test_jpV0_x : nextIs (run 0xB200 (regs [(0, 0x01), (2, 0x77)])) (fun t => t.pc == 0x0201) = true := by decide
/-- F5. -/
theorem test_unknown : nextIs (run 0x0000 (State.reset.setDt 0x05))
    (fun t => t == ((State.reset.setDt 0x04).setPc 0x0202).setDraws 1) = true := by decide
/-- F8. -/
theorem test_unknown_no_skip : nextIs (run 0x5121 (regs [])) (fun t => t.pc == 0x0202) = true := by decide
/-- F2: the fetch wraps at the end of memory, pc does not. -/
theorem test_fetch_wraps : nextIs (step (bytesAt 0xFFF [0x60, 0x2A] (State.reset.setPc 0x0FFF)))
    (fun t => t.getV 0 == 0x2A && t.pc == 0x1001) = true := by decide
/-- F4: an odd pc. -/
theorem test_fetch_odd : nextIs (step (bytesAt 0x201 [0x61, 0x07] (State.reset.setPc 0x0201)))
    (fun t => t.getV 1 == 0x07 && t.pc == 0x0203) = true := by decide

/-! ### Loads, ALU, random -/

/-- A1, A2. -/
theorem test_ldImm : nextIs (exec (.ldImm 0xA 0x7F) State.reset) (fun t => t.getV 0xA == 0x7F) = true ∧
    nextIs (exec (.ldImm 0xF 0x00) (regs [(0xF, 0x01)])) (fun t => t.getV 0xF == 0x00) = true := by decide
/-- A3, A4. -/
theorem test_addImm : nextIs (exec (.addImm 0x2 0x05) (regs [(2, 0xFE)]))
      (fun t => t.getV 2 == 0x03 && t.getV 0xF == 0x00) = true ∧
    nextIs (exec (.addImm 0x2 0xFF) (regs [(2, 0x01)])) (fun t => t.getV 2 == 0x00) = true := by decide
/-- A5. -/
theorem test_ldReg : nextIs (exec (.ldReg 0x0 0x1) (regs [(1, 0x3C)])) (fun t => t.getV 0 == 0x3C) = true := by decide
/-- A6. -/
theorem test_or : nextIs (exec (.orReg 0x0 0x1) (regs [(0, 0xF0), (1, 0x0F), (0xF, 0x01)]))
    (fun t => t.getV 0 == 0xFF && t.getV 0xF == 0x01) = true := by decide
/-- A7. -/
theorem test_and : nextIs (exec (.andReg 0x0 0x1) (regs [(0, 0xF0), (1, 0x3C), (0xF, 0x01)]))
    (fun t => t.getV 0 == 0x30 && t.getV 0xF == 0x01) = true := by decide
/-- A8. -/
theorem test_xor : nextIs (exec (.xorReg 0x0 0x1) (regs [(0, 0xF0), (1, 0x3C), (0xF, 0x01)]))
    (fun t => t.getV 0 == 0xCC && t.getV 0xF == 0x01) = true := by decide
/-- A10, A11. -/
theorem test_addReg : nextIs (exec (.addReg 0x0 0x1) (regs [(0, 0xFF), (1, 0x01)]))
      (fun t => t.getV 0 == 0x00 && t.getV 0xF == 0x01) = true ∧
    nextIs (exec (.addReg 0x0 0x1) (regs [(0, 0xF0), (1, 0x0F)]))
      (fun t => t.getV 0 == 0xFF && t.getV 0xF == 0x00) = true := by decide
/-- A13, A15: VF as destination, VF as addend. -/
theorem test_addReg_VF : nextIs (exec (.addReg 0xF 0x1) (regs [(0xF, 0xF0), (1, 0x20)]))
      (fun t => t.getV 0xF == 0x01) = true ∧
    nextIs (exec (.addReg 0x0 0xF) (regs [(0, 0xFF), (0xF, 0x01)]))
      (fun t => t.getV 0 == 0x00 && t.getV 0xF == 0x01) = true := by decide
/-- A19, A20. -/
theorem test_sub : nextIs (exec (.sub 0x0 0x1) (regs [(0, 0x03), (1, 0x05)]))
      (fun t => t.getV 0 == 0xFE && t.getV 0xF == 0x00) = true ∧
    nextIs (exec (.sub 0x0 0x1) (regs [(0, 0x07), (1, 0x07)]))
      (fun t => t.getV 0 == 0x00 && t.getV 0xF == 0x01) = true := by decide
/-- A16. -/
theorem test_sub_VF : nextIs (exec (.sub 0xF 0x1) (regs [(0xF, 0x05), (1, 0x03)])) (fun t => t.getV 0xF == 0x01) = true ∧
    nextIs (exec (.sub 0xF 0x1) (regs [(0xF, 0x03), (1, 0x05)])) (fun t => t.getV 0xF == 0x00) = true := by decide
/-- A22, A23. -/
theorem test_subn : nextIs (exec (.subn 0x0 0x1) (regs [(0, 0x03), (1, 0x05)]))
      (fun t => t.getV 0 == 0x02 && t.getV 0xF == 0x01) = true ∧
    nextIs (exec (.subn 0x0 0x1) (regs [(0, 0x05), (1, 0x03)]))
      (fun t => t.getV 0 == 0xFE && t.getV 0xF == 0x00) = true := by decide
/-- A25: y is ignored. -/
theorem test_shr : nextIs (exec (.shr 0x2 0x3) (regs [(2, 0x0B), (3, 0xF0)]))
    (fun t => t.getV 2 == 0x05 && t.getV 0xF == 0x01 && t.getV 3 == 0xF0) = true := by decide
/-- A28. -/
theorem test_shr_VF : nextIs (exec (.shr 0xF 0x0) (regs [(0xF, 0x03)])) (fun t => t.getV 0xF == 0x01) = true ∧
    nextIs (exec (.shr 0xF 0x0) (regs [(0xF, 0x02)])) (fun t => t.getV 0xF == 0x00) = true := by decide
/-- A29. -/
theorem test_shl : nextIs (exec (.shl 0x2 0x3) (regs [(2, 0x81), (3, 0x0F)]))
    (fun t => t.getV 2 == 0x02 && t.getV 0xF == 0x01 && t.getV 3 == 0x0F) = true := by decide
/-- A32. -/
theorem test_shl_VF : nextIs (exec (.shl 0xF 0x0) (regs [(0xF, 0x80)])) (fun t => t.getV 0xF == 0x01) = true ∧
    nextIs (exec (.shl 0xF 0x0) (regs [(0xF, 0x7F)])) (fun t => t.getV 0xF == 0x00) = true := by decide
/-- A34: whatever the draw is. -/
theorem test_rnd : exec (.rnd 0x3 0x00) (regs [(3, 0x99)]) = .next ((regs [(3, 0x99)]).setV 3 0x00) := by
  simp [exec, execRnd]

/-! ### Index and memory -/

/-- M1. -/
theorem test_ldI : nextIs (exec (.ldI 0xFFF) State.reset) (fun t => t.i == 0x0FFF) = true := by decide
/-- M2. -/
theorem test_addI : nextIs (exec (.addI 0x1) ((regs [(1, 0x01)]).setI 0x0FFF))
    (fun t => t.i == 0x1000 && t.getV 0xF == 0x00) = true := by decide
/-- M3. -/
theorem test_addI_wraps :
    nextIs (exec (.addI 0x1) ((regs [(1, 0x02)]).setI 0xFFFF)) (fun t => t.i == 0x0001) = true := by decide
/-- M4, M6. -/
theorem test_ldIF : nextIs (exec (.ldIF 0x4) (regs [(4, 0x0A)])) (fun t => t.i == 0x0032) = true ∧
    nextIs (exec (.ldIF 0x4) (regs [(4, 0xFF)])) (fun t => t.i == 0x04FB) = true := by decide
/-- The worked example of R123. -/
theorem test_bcd : nextIs (exec (.bcd 0x0) ((regs [(0, 234)]).setI 0x300))
    (fun t => t.readMem 0x300 == 0x02 && t.readMem 0x301 == 0x03 && t.readMem 0x302 == 0x04) = true := by decide
/-- M8: over the end of memory, onto the font. -/
theorem test_bcd_wraps : nextIs (exec (.bcd 0x0) ((regs [(0, 0xFF)]).setI 0x0FFF))
    (fun t => t.readMem 0xFFF == 0x02 && t.readMem 0x000 == 0x05 && t.readMem 0x001 == 0x05 && t.readMem 0x002 == 0x90 &&
      t.mem.wf) = true := by decide
/-- M10. -/
theorem test_ldMemVx_one : nextIs (exec (.ldMemVx 0x0) ((regs [(0, 0xAA)]).setI 0x300))
    (fun t => t.mem == [(0x300, 0xAA)] && t.i == 0x300) = true := by decide
/-- M11. -/
theorem test_ldMemVx_wraps :
    nextIs (exec (.ldMemVx 0x3) ((regs [(0, 0x01), (1, 0x02), (2, 0x03), (3, 0x04)]).setI 0x0FFE))
      (fun t => t.mem == [(0x000, 0x03), (0x001, 0x04), (0xFFE, 0x01), (0xFFF, 0x02)] && t.i == 0x0FFE) = true := by decide
/-- M13. -/
theorem test_ldVxMem : nextIs (exec (.ldVxMem 0x1) (bytesAt 0x300 [0xAA, 0xBB] ((regs [(2, 0x77)]).setI 0x300)))
    (fun t => t.getV 0 == 0xAA && t.getV 1 == 0xBB && t.getV 2 == 0x77 && t.i == 0x300) = true := by decide
/-- M14: address 1000 wraps to the font's first byte. -/
theorem test_ldVxMem_wraps :
    nextIs (exec (.ldVxMem 0x0) (State.reset.setI 0x1000)) (fun t => t.getV 0 == 0xF0) = true := by decide
/-- M16: a store over the running instruction. -/
theorem test_store_over_itself : nextIs (run 0xF155 ((regs [(0, 0x12), (1, 0x00)]).setI 0x200))
    (fun t => t.readMem 0x200 == 0x12 && t.readMem 0x201 == 0x00 && t.pc == 0x0202) = true := by decide
/-- The canonical form: writing what an address reads as unlisted removes its entry. -/
theorem test_write_removes : (((State.reset.writeMem 0x300 0x07).writeMem 0x000 0x01).writeMem 0x1300 0x00).mem =
    [(0x000, 0x01)] := by decide

/-! ### Display -/

/-- G1. -/
theorem test_cls : nextIs (exec .cls (lit [(5, 5), (63, 31)] (regs [(0xF, 0x01)])))
    (fun t => shows t [] [(5, 5), (63, 31), (0, 0)] && t.dirty && t.getV 0xF == 0x01) = true := by decide
/-- The worked example of R131: both wraps. -/
theorem test_drw_wraps : nextIs (exec (.drw 0 1 1) (bytesAt 0x300 [0xF0] ((regs [(0, 62), (1, 31), (0xF, 0x01)]).setI 0x300)))
    (fun t => shows t [(62, 31), (63, 31), (0, 31), (1, 31)] [(61, 31), (2, 31), (62, 0), (0, 0)] && t.getV 0xF == 0x00 && t.dirty) =
    true := by decide
/-- G10, and the order of the bits. -/
theorem test_drw_collides : nextIs (exec (.drw 0 1 1) (lit [(1, 0)] (bytesAt 0x300 [0xC0] (State.reset.setI 0x300))))
    (fun t => shows t [(0, 0)] [(1, 0), (0, 1), (2, 0)] && t.getV 0xF == 0x01) = true := by decide
/-- G8. -/
theorem test_drw_no_rows : nextIs (exec (.drw 0 1 0) (lit [(5, 5)] (regs [(0xF, 0x01)])))
    (fun t => shows t [(5, 5)] [(0, 0), (4, 5), (5, 6)] && t.getV 0xF == 0x00 && t.dirty) = true := by decide
/-- G11: a coordinate in VF. -/
theorem test_drw_VF : nextIs (exec (.drw 0xF 1 1) (bytesAt 0x300 [0x80] ((regs [(0xF, 0x0A), (1, 0x02)]).setI 0x300)))
    (fun t => t.pix.get 10 2 && t.getV 0xF == 0x00) = true := by decide

/-! ### Keypad and timers -/

/-- K1, K2, K5. -/
theorem test_skp : nextIs (run 0xE59E (keysDown [10] (regs [(5, 0x1A)]))) (fun t => t.pc == 0x0204) = true ∧
    nextIs (run 0xE59E (regs [(5, 0x0A)])) (fun t => t.pc == 0x0202) = true := by decide
/-- K3, K4. -/
theorem test_sknp : nextIs (run 0xE5A1 (keysDown [10] (regs [(5, 0x0A)]))) (fun t => t.pc == 0x0202) = true ∧
    nextIs (run 0xE5A1 (regs [(5, 0x0A)])) (fun t => t.pc == 0x0204) = true := by decide
/-- T1. -/
theorem test_ldVxDt : nextIs (run 0xF307 (State.reset.setDt 0x10)) (fun t => t.getV 3 == 0x10 && t.dt == 0x0F) = true := by
  decide
/-- K6. -/
theorem test_ldVxK_waits : nextIs (run 0xF30A ((regs [(3, 0x99)]).setDt 0x05))
    (fun t => t.pc == 0x0200 && t.getV 3 == 0x99 && t.dt == 0x04) = true := by decide
/-- K8, K9. -/
theorem test_ldVxK : nextIs (run 0xF30A (keysDown [3, 9] State.reset)) (fun t => t.getV 3 == 0x03 && t.pc == 0x0202) = true ∧
    nextIs (run 0xF30A (keysDown [0] (regs [(3, 0x99)]))) (fun t => t.getV 3 == 0x00 && t.pc == 0x0202) = true := by decide
/-- T3. -/
theorem test_ldDtVx : nextIs (run 0xF215 (regs [(2, 0x3C)])) (fun t => t.dt == 0x3B) = true := by decide
/-- T5, T6. -/
theorem test_ldStVx : nextIs (run 0xF218 (regs [(2, 0x05)])) (fun t => t.st == 0x04) = true ∧
    nextIs (run 0xF218 (regs [(2, 0x01)])) (fun t => t.st == 0x00) = true := by decide
/-- T7, T8. -/
theorem test_ticks : nextIs (run 0x0000 ((State.reset.setDt 0x01).setSt 0x03)) (fun t => t.dt == 0x00 && t.st == 0x02) = true ∧
    nextIs (run 0x0000 State.reset) (fun t => t.dt == 0x00 && t.st == 0x00) = true := by decide
/-- T9: the other coupling. -/
theorem test_external : nextIs (stepWith .external ((regs [(2, 0x3C)]).placeWord 0xF215))
    (fun t => t.dt == 0x3C && t.tickTimers.dt == 0x3B) = true := by decide

/-! ### Host operations -/

/-- R182: glyph 7 and glyph A stand at 5 * 7 and 5 * 10. -/
theorem test_font : fontTable.length = 80 ∧ State.reset.readMem 0x023 = 0xF0 ∧ State.reset.readMem 0x024 = 0x10 ∧
    State.reset.readMem 0x025 = 0x20 ∧ State.reset.readMem 0x036 = 0x90 ∧ State.reset.readMem 0x050 = 0x00 := by decide
/-- H1. -/
theorem test_host_reset : hostIs (hostOp .reset (keysDown [4] ((State.reset.setPc 0x0300).writeMem 0x000 0x11)))
    (fun t _ => t == keysDown [4] State.reset) = true := by decide
/-- H2, H3. -/
theorem test_host_load : hostIs (hostOp (.loadProgram [0x12, 0x00]) State.reset)
      (fun t _ => t.mem == [(0x200, 0x12)] && t.readMem 0x201 == 0x00 && t.pc == 0x0200) = true ∧
    hostIs (hostOp (.loadProgram []) State.reset) (fun t _ => t == State.reset) = true := by decide
/-- H5. -/
theorem test_host_setKey : hostIs (hostOp (.setKey 4 true) State.reset) (fun t _ => t == keysDown [4] State.reset) = true := by
  decide
/-- H6, H7. -/
theorem test_host_consumeDirty : hostIs (hostOp .consumeDirty (State.reset.setDirty true))
      (fun t v => v == .bool true && !t.dirty) = true ∧
    hostIs (hostOp .consumeDirty State.reset) (fun t v => v == .bool false && !t.dirty) = true := by decide
/-- H8. -/
theorem test_host_soundActive : hostIs (hostOp .soundActive (State.reset.setSt 0x02)) (fun _ v => v == .bool true) = true ∧
    hostIs (hostOp .soundActive State.reset) (fun _ v => v == .bool false) = true := by decide
/-- H9. -/
theorem test_host_readPixel : hostIs (hostOp (.readPixel 3 4) (lit [(3, 4)] State.reset)) (fun _ v => v == .bool true) = true ∧
    hostIs (hostOp (.readPixel 4 3) (lit [(3, 4)] State.reset)) (fun _ v => v == .bool false) = true := by decide
/-- R150: the codes. -/
theorem test_codes : statusCode (run 0x0000 State.reset) = some 0 ∧ statusCode (run 0x00EE State.reset) = some 2 ∧
    statusCode (run 0x2200 (State.reset.setSp 16)) = some 1 := by decide

/-! ### Witnesses: for each statement with hypotheses, a concrete case that meets them -/

theorem witness_DecodingAnEncodedInstructionGivesItBack :
    (Instr.drw 0xF 0xF 0xF).wf = true ∧ (Instr.jpV0 0xFFF).wf = true ∧ (Instr.unknown 0x5121).wf = true := by decide

theorem witness_OpcodeMapSelectsTheInstruction :
    (∃ r ∈ opcodeTable, r.selects 0x812E = true) ∧ (∀ r ∈ opcodeTable, r.selects 0x812F = false) := by decide

theorem witness_FieldsAreTheMaskedBits :
    fieldT 0x1FFF = 0x1#4 ∧ fieldT 0x3000 = 0x3#4 ∧ fieldT 0xD12A = 0xD#4 := by decide

theorem witness_UnknownOpcodeIsANoOperation :
    isUnknownWord State.reset.fetch = true ∧ isUnknownWord (State.reset.placeWord 0xFFFF).fetch = true := by decide

/-- A Step that goes on and one that faults. -/
theorem witness_StepRunsTheDecodedInstruction :
    decodeBytes [State.reset.readMem State.reset.pc.toNat, State.reset.readMem (State.reset.pc.toNat + 1)] =
      .ok (.unknown 0x0000, []) ∧
    step (State.reset.placeWord 0x00EE) = .fault (.stackUnderflow 0x0200) := ⟨rfl, rfl⟩

theorem witness_TimersCountEverySuccessfulStep :
    (∃ t, run 0x0000 State.reset = .next t) ∧ (∃ t, run 0xFF15 State.reset = .next t) ∧
    (∃ t, run 0xF018 State.reset = .next t) ∧ decode (State.reset.placeWord 0xFF15).fetch = .ldDtVx 0xF ∧
    decode (State.reset.placeWord 0xF018).fetch = .ldStVx 0x0 ∧
    (∀ x, decode State.reset.fetch ≠ .ldDtVx x) ∧ (∀ x, decode State.reset.fetch ≠ .ldStVx x) :=
  ⟨⟨_, rfl⟩, ⟨_, rfl⟩, ⟨_, rfl⟩, by decide, by decide, by decide, by decide⟩

/-- A skip taken and one not taken, the taken one at the end of the pc's range. -/
theorem witness_SkipPassesOverOneWord :
    skipTaken (decode ((State.reset.setPc 0xFFFC).placeWord 0x3000).fetch) ((State.reset.setPc 0xFFFC).placeWord 0x3000) =
      some true ∧
    skipTaken (decode (State.reset.placeWord 0xEF9E).fetch) (State.reset.placeWord 0xEF9E) = some false := ⟨rfl, rfl⟩

/-- The two faults at their limits, and the last call and return that do not fault. -/
theorem witness_StepFaultsExactlyOnStackMisuse :
    run 0x2300 (State.reset.setSp 16) = .fault (.stackOverflow 0x0200) ∧
    run 0x00EE State.reset = .fault (.stackUnderflow 0x0200) ∧
    (∃ t, run 0x2300 (State.reset.setSp 15) = .next t) ∧ (∃ t, run 0x00EE (State.reset.setSp 1) = .next t) :=
  ⟨rfl, rfl, ⟨_, rfl⟩, ⟨_, rfl⟩⟩

theorem witness_FaultingStepCommitsNothing :
    hostOp .step ((State.reset.setSp 16).placeWord 0x2300) = .fault (.stackOverflow 0x0200) ∧
    hostOp .step (State.reset.placeWord 0x00EE) = .fault (.stackUnderflow 0x0200) := ⟨rfl, rfl⟩

/-- One Step for each of the four places pc can go. -/
theorem witness_ProgramCounterAfterAStep :
    (∃ t, run 0x3000 State.reset = .next t) ∧ (∃ t, run 0xF00A State.reset = .next t) ∧
    (∃ t, run 0x1FFF State.reset = .next t) ∧ (∃ t, run 0x6000 State.reset = .next t) :=
  ⟨⟨_, rfl⟩, ⟨_, rfl⟩, ⟨_, rfl⟩, ⟨_, rfl⟩⟩

theorem witness_OnlyRndDependsOnTheDraw : ∀ x nn, Instr.drw 0 0 0 ≠ .rnd x nn := by intro x nn; simp

/-- A Step that changes each piece. -/
theorem witness_OnlyTheListedInstructionsChangeAPiece :
    nextIs (run 0x00E0 State.reset) (fun t => t.dirty != false) = true ∧
    nextIs (run 0x2300 State.reset) (fun t => t.stack != State.reset.stack && t.sp != 0) = true ∧
    nextIs (run 0x00EE (State.reset.setSp 1)) (fun t => t.sp != 1) = true ∧
    nextIs (run 0xA001 State.reset) (fun t => t.i != 0) = true ∧
    nextIs (run 0xF055 State.reset) (fun t => t.mem != (State.reset.placeWord 0xF055).mem) = true ∧
    nextIs (run 0xF015 (regs [(0, 0xFF)])) (fun t => decide (0 < t.dt)) = true ∧
    nextIs (run 0xF018 (regs [(0, 0xFF)])) (fun t => decide (0 < t.st)) = true ∧
    nextIs (run 0xD001 State.reset) (fun t => t.pix.get 0 0) = true := by decide

/-- A flag writer, a data destination and VF as a flag. -/
theorem witness_RegistersChangeOnlyWhereNamed :
    nextIs (run 0x8014 (regs [(0, 0xFF), (1, 0x01)])) (fun t => t.getV 0xF != 0 && t.getV 0 != 0xFF) = true ∧
    flagWriter (decode ((regs [(0, 0xFF), (1, 0x01)]).placeWord 0x8014).fetch) = true ∧
    nextIs (run 0xFF65 (State.reset.setI 0x000)) (fun t => t.getV 0xF != 0) = true := by decide

theorem witness_RetPopsTheStack : State.reset.sp.val = 0 ∧ (State.reset.setSp 1).sp.val ≠ 0 ∧
    (State.reset.setSp 16).sp.val ≠ 0 := by decide

theorem witness_CallPushesTheReturnAddress : (State.reset.setSp 16).sp.val = 16 ∧ (State.reset.setSp 15).sp.val < 16 ∧
    ∃ k, k ≠ (State.reset.setSp 15).sp.val := ⟨rfl, by decide, 14, by decide⟩

theorem witness_RetUndoesCall : (State.reset.setSp 15).sp.val < 16 ∧
    ∃ t, exec (.call 0x300) (State.reset.setSp 15) = .next t ∧ (t.setV 0 1).stack = t.stack ∧ (t.setV 0 1).sp = t.sp :=
  ⟨by decide, _, rfl, rfl, rfl⟩

theorem witness_AddAndSubtractReportInVF : (0xE#4 : Nib) ≠ 0xF#4 ∧ (0x0#4 : Nib) ≠ 0xF#4 := by decide

theorem witness_ShiftsReportTheBitShiftedOut : (0xE#4 : Nib) ≠ 0xF#4 := by decide

theorem witness_RndWritesTheMaskedDraw :
    (∃ draw : Byte, State.reset.rndByte = draw) ∧ (0x7F#8).getLsbD 7 = false := ⟨⟨_, rfl⟩, by decide⟩

/-- The first and the last byte of memory, and an address beyond it. -/
theorem witness_MemoryPortReadsWhatWasWritten : (State.reset.writeMem 0xFFF 0x01).Inv ∧ (State.reset.writeMem 0x1000 0x01).Inv ∧
    (0x1FFF % 4096 = 0xFFF % 4096) := ⟨rfl, rfl, rfl⟩

theorem witness_NextFetchSeesAStore : (State.reset.setI 0xF200).Inv ∧ (0xF#4 : Nib) ≠ 0x0#4 ∧
    (State.reset.setI 0xF200).i.toNat % 4096 = (State.reset.setI 0xF200).pc.toNat % 4096 := ⟨rfl, by decide, rfl⟩

theorem witness_StepRunsAPlacedWord : State.reset.Inv ∧ (State.reset.setPc 0xFFFF).Inv := ⟨rfl, rfl⟩

theorem witness_BcdStoresThreeDigits : (State.reset.setI 0x0FFF).Inv ∧
    ∀ k, k < 3 → memAddr 0x002 ≠ memAddr ((State.reset.setI 0x0FFF).dataAddr k) := ⟨rfl, by decide⟩

theorem witness_StoreRegistersWritesExactlyItsBytes : (State.reset.setI 0x0FF0).Inv ∧ (0xF#4 : Nib) ≤ 0xF#4 ∧
    (0x0#4 : Nib) ≤ 0x0#4 ∧ ∀ k : Nib, k ≤ 0xF#4 → memAddr 0x000 ≠ memAddr ((State.reset.setI 0x0FF0).dataAddr k.toNat) :=
  ⟨rfl, by decide, by decide, by decide⟩

theorem witness_LoadRegistersReadsExactlyItsBytes : (0xF#4 : Nib) ≤ 0xF#4 ∧ (0x0#4 : Nib) < 0x1#4 ∧ (0xE#4 : Nib) < 0xF#4 := by
  decide

theorem witness_LoadUndoesStore : (State.reset.setI 0x0FFF).Inv ∧ ∃ t, exec (.ldMemVx 0xF) (State.reset.setI 0x0FFF) = .next t ∧
    (t.setV 0 1).i = t.i ∧
    ∀ k : Nib, k ≤ 0xF → (t.setV 0 1).readMem ((State.reset.setI 0x0FFF).dataAddr k.toNat) =
      t.readMem ((State.reset.setI 0x0FFF).dataAddr k.toNat) :=
  ⟨rfl, State.storeRegs 16 (State.reset.setI 0x0FFF), rfl, by simp, fun _ _ => by simp⟩

/-- A cell under the sprite (the font's first byte, 0xF0, at 0) and one beside it, a draw that collides and one that does not. -/
theorem witness_DrwXorsTheSprite : State.reset.InSprite 0x00 0x00 1 3 0 ∧ ¬State.reset.InSprite 0x00 0x00 1 4 0 ∧
    ¬State.reset.InSprite 0x00 0x00 0 0 0 ∧ (lit [(3, 0)] State.reset).pix.get 3 0 = true ∧
    State.reset.pix.get 3 0 = false := by
  refine ⟨⟨0, 3, by decide, by decide, by decide, rfl, rfl⟩, ?_, ?_, by decide, by decide⟩
  · rintro ⟨row, col, hr, hc, hb, hx, -⟩
    obtain rfl : row = 0 := by omega
    have : col = 4 := by simp at hx; omega
    subst this
    exact absurd hb (by decide)
  · rintro ⟨row, col, hr, -⟩
    omega

theorem witness_DrawingTwiceRestoresTheGrid : (0x0#4 : Nib) ≠ 0xF#4 ∧ (0xE#4 : Nib) ≠ 0xF#4 := by decide

theorem witness_KeySkipsTestTheSelectedKey : ((regs [(5, 0x1F)]).getV 5).toNat % 16 = (0xF#4).toNat ∧
    ((regs [(5, 0x10)]).getV 5).toNat % 16 = (0x0#4).toNat := by decide

theorem witness_TimerMoves : decode (State.reset.placeWord 0xFF07).fetch = .ldVxDt 0xF ∧
    decode (State.reset.placeWord 0xF015).fetch = .ldDtVx 0x0 ∧ decode (State.reset.placeWord 0xF018).fetch = .ldStVx 0x0 := by
  decide

/-- No key; only the highest; the lowest of all. -/
theorem witness_KeyWaitRepollsOrLoadsTheLowestKey :
    ((∀ k, (State.reset.placeWord 0xFF0A).keyPressed k = false) ∧
      decode (State.reset.placeWord 0xFF0A).fetch = .ldVxK 0xF) ∧
    ((keysDown [15] State.reset).keyPressed 0xF#4 = true ∧ ∀ j, j < 0xF#4 → (keysDown [15] State.reset).keyPressed j = false) ∧
    ((keysDown [0, 15] State.reset).keyPressed 0x0#4 = true ∧
      ∀ j, j < 0x0#4 → (keysDown [0, 15] State.reset).keyPressed j = false) := by decide

theorem witness_LoadErrorWritesNothing : (List.replicate 3585 (0x00 : Byte)).length > 3584 ∧
    (List.replicate 3584 (0x00 : Byte)).length ≤ 3584 := by
  simp only [List.length_replicate]; omega

theorem witness_LoadProgramPlacesTheImage : State.reset.Inv ∧ (List.replicate 3584 (0x00 : Byte)).length ≤ 3584 ∧
    3583 < (List.replicate 3584 (0x00 : Byte)).length ∧ 0x1FF < 0x200 ∧ 0x200 + [0x12, 0x00].length ≤ 0xFFF :=
  ⟨rfl, by rw [List.length_replicate], by rw [List.length_replicate]; omega, by decide, by decide⟩

theorem witness_DirtyIsSetByDrawingAndClearedByConsuming :
    (HostOp.step ≠ .consumeDirty ∧ HostOp.step ≠ .reset ∧ (State.reset.setDirty true).dirty = true) ∧
    decode (State.reset.placeWord 0x00E0).fetch = .cls ∧ decode (State.reset.placeWord 0xD000).fetch = .drw 0 0 0 ∧
    ((State.reset.placeWord 0xD000).dirty = false ∧ (hostAfter .step (State.reset.placeWord 0xD000)).dirty = true) := by
  decide

theorem witness_HostAccessors : (63 < 64 ∧ 31 < 32) ∧ (64 ≤ 64 ∨ 32 ≤ 0) ∧ (64 ≤ 0 ∨ 32 ≤ 32) ∧ 16 ≤ 16 := by decide

theorem witness_EveryStepKeepsTheInvariant : State.reset.Inv ∧ (∃ t, stepWith .perStep State.reset = .next t) ∧
    ∃ t, stepWith .external State.reset = .next t := ⟨rfl, ⟨_, rfl⟩, _, rfl⟩

theorem witness_EveryHostRunKeepsTheInvariant : State.reset.Inv ∧
    ∀ op ∈ [HostOp.reset, .loadProgram [0x12, 0x00], .step, .consumeDirty], ∀ k b, op ≠ .setKey k b :=
  ⟨rfl, by simp⟩

end Sys2Proof.Tests
end

/-! PROOFS. The memory port and the fetch (spec/20_memory.md R41 to R43), settled from the rules of Laws/Memory,
Laws/Ops and Laws/Decode. -/

namespace Sys2Proof.Machine

/-- The memory port reduces an address modulo 4096 (R44), with the size written as the numeral statements use. -/
theorem memAddr_eq_mod (a : Nat) : memAddr a = a % 4096 := rfl

/-- A read depends on the address modulo 4096 only (R41, R44). -/
theorem State.readMem_mod (s : State) (a : Nat) : s.readMem (a % 4096) = s.readMem a :=
  State.readMem_memAddr s a

/-- Replacing the memory leaves every other piece of state as it was. -/
theorem State.onlyChanges_setMem (s : State) (m : Memory) : OnlyChanges [.mem] s (s.setMem m) := by
  intro p hp
  cases p with
  | mem => exact absurd (List.mem_singleton_self _) hp
  | v => exact fun _ => rfl
  | _ => rfl

/-- `MemWrite` changes nothing but M (R42). -/
theorem State.onlyChanges_writeMem (s : State) (a : Nat) (b : Byte) : OnlyChanges [.mem] s (s.writeMem a b) :=
  s.onlyChanges_setMem _

/-- Settles O29: a read after a write in a canonical memory, the reduction of every address, and the frame of a write. -/
theorem memoryPortReadsWhatWasWritten : Obligations.MemoryPortReadsWhatWasWritten := by
  intro s a b hs
  refine ⟨fun c => ?_, fun c => (s.readMem_mod c).symm, s.onlyChanges_writeMem a b⟩
  rw [State.readMem_writeMem hs, memAddr_eq_mod, memAddr_eq_mod]

/-- Settles O30: the value of a word put together from two bytes, each read at its address modulo 4096. -/
theorem fetchIsBigEndian : Obligations.FetchIsBigEndian := by
  intro s
  rw [State.fetch, toNat_wordOfBytes, State.readMem_mod, State.readMem_mod]

end Sys2Proof.Machine

/-! PROOFS. The fields of an opcode (spec/30_encoding.md R61), settled from one rule about masks of any width and the rules of
Laws/Decode. -/

namespace Sys2Proof

/-- `w` consecutive bits from bit `s` up, taken by a mask of `w` ones at bit `s` and a shift: the form of R61's formulas. -/
theorem setWidth_extractLsb'_eq_mask_shift {v : Nat} (a : BitVec v) (s w : Nat) :
    (a.extractLsb' s w).setWidth v = (a &&& (BitVec.allOnes w).setWidth v <<< s) >>> s := by
  apply BitVec.eq_of_getLsbD_eq
  intro i hi
  by_cases hsi : s + i < v
  · simp [hi, hsi, Bool.and_comm]
  · simp [BitVec.getLsbD_of_ge a (s + i) (by omega)]

/-! ### The fields by mask and shift -/

/-- The topmost four bits need no mask. -/
theorem setWidth_fieldT (op : Word) : (fieldT op).setWidth 16 = op >>> 12 := by
  apply BitVec.eq_of_toNat_eq
  rw [BitVec.toNat_setWidth_of_le (by decide), toNat_fieldT, BitVec.toNat_ushiftRight, Nat.shiftRight_eq_div_pow]

theorem setWidth_fieldX (op : Word) : (fieldX op).setWidth 16 = (op &&& 0x0F00) >>> 8 :=
  setWidth_extractLsb'_eq_mask_shift op 8 4

theorem setWidth_fieldY (op : Word) : (fieldY op).setWidth 16 = (op &&& 0x00F0) >>> 4 :=
  setWidth_extractLsb'_eq_mask_shift op 4 4

theorem setWidth_fieldN (op : Word) : (fieldN op).setWidth 16 = op &&& 0x000F :=
  setWidth_extractLsb'_eq_mask_shift op 0 4

theorem setWidth_fieldNN (op : Word) : (fieldNN op).setWidth 16 = op &&& 0x00FF :=
  setWidth_extractLsb'_eq_mask_shift op 0 8

theorem setWidth_fieldNNN (op : Word) : (fieldNNN op).setWidth 16 = op &&& 0x0FFF :=
  setWidth_extractLsb'_eq_mask_shift op 0 12

/-! ### How the fields overlap -/

theorem fieldNN_eq_append (op : Word) : fieldNN op = fieldY op ++ fieldN op := by
  apply BitVec.eq_of_toNat_eq
  rw [toNat_append, toNat_fieldNN, toNat_fieldY, toNat_fieldN]
  omega

theorem fieldNNN_eq_append (op : Word) : fieldNNN op = (fieldX op ++ fieldY op) ++ fieldN op := by
  apply BitVec.eq_of_toNat_eq
  rw [toNat_append, toNat_append, toNat_fieldNNN, toNat_fieldX, toNat_fieldY, toNat_fieldN]
  omega

/-! ### Families selected by t alone (R64) -/

theorem decode_of_fieldT_eq_1 {op : Word} (ht : fieldT op = 0x1#4) : decode op = .jp (fieldNNN op) := by
  simp only [decode, ht]

theorem decode_of_fieldT_eq_3 {op : Word} (ht : fieldT op = 0x3#4) : decode op = .seImm (fieldX op) (fieldNN op) := by
  simp only [decode, ht]

theorem decode_of_fieldT_eq_D {op : Word} (ht : fieldT op = 0xD#4) :
    decode op = .drw (fieldX op) (fieldY op) (fieldN op) := by
  simp only [decode, ht]

/-- Settles O5: each field by its mask and shift, the two overlaps, and the three families the statement names. -/
theorem fieldsAreTheMaskedBits : Obligations.FieldsAreTheMaskedBits := fun op =>
  ⟨setWidth_fieldT op, setWidth_fieldX op, setWidth_fieldY op, setWidth_fieldN op, setWidth_fieldNN op, setWidth_fieldNNN op,
    fieldNN_eq_append op, fieldNNN_eq_append op, decode_of_fieldT_eq_1, decode_of_fieldT_eq_3, decode_of_fieldT_eq_D⟩

end Sys2Proof

/-! PROOFS. `TickTimers()` (spec/40_step_cycle.md R83), settled from the down-count of one timer and the rules of Laws/State. -/

namespace Sys2Proof.Machine

/-- `TickTimers()` changes nothing but the two timers. -/
theorem State.onlyChanges_tickTimers (s : State) : OnlyChanges [.dt, .st] s s.tickTimers := by
  intro p hp
  cases p with
  | dt => simp at hp
  | st => simp at hp
  | v | mem => exact fun _ => rfl
  | _ => rfl

/-- Settles O9: each timer by the down-count of a byte, and the frame of the tick. -/
theorem tickTimersCountsBothDown : Obligations.TickTimersCountsBothDown := fun s =>
  ⟨State.toNat_countDown s.dt, State.toNat_countDown s.st, s.onlyChanges_tickTimers⟩

end Sys2Proof.Machine

/-! PROOFS. Jumps, CALL and the comparing skips (spec/41_control_flow.md R91 to R97), settled from the addresses they load, the
frames of their writes and the rules of Laws/Ops and Laws/Step. -/

namespace Sys2Proof.Machine

/-! ### Addresses -/

theorem toNat_zext12 (nnn : Addr12) : (zext12 nnn).toNat = nnn.toNat :=
  BitVec.toNat_setWidth_of_le (by decide)

theorem toNat_zext8 (b : Byte) : (zext8 b).toNat = b.toNat :=
  BitVec.toNat_setWidth_of_le (by decide)

/-- The target of `JP V0` is at most 0xFFF + 0xFF, so the 16-bit sum does not wrap (R97). -/
theorem toNat_zext12_add_zext8 (nnn : Addr12) (b : Byte) : (zext12 nnn + zext8 b).toNat = nnn.toNat + b.toNat := by
  rw [BitVec.toNat_add, toNat_zext12, toNat_zext8]
  omega

/-! ### Frames -/

/-- Loading pc leaves every other piece of state as it was. -/
theorem State.onlyChanges_setPc (s : State) (w : Word) : OnlyChanges [.pc] s (s.setPc w) := by
  intro p hp
  cases p with
  | pc => simp at hp
  | v | mem => exact fun _ => rfl
  | _ => rfl

/-- The three writes of a CALL leave every other piece of state as it was. -/
theorem State.onlyChanges_setStack_setSp_setPc (s : State) (stack : Vector Word 16) (sp : Fin 17) (w : Word) :
    OnlyChanges [.pc, .sp, .stack] s (((s.setStack stack).setSp sp).setPc w) := by
  intro p hp
  cases p with
  | pc | sp | stack => simp at hp
  | v | mem => exact fun _ => rfl
  | _ => rfl

/-! ### Skips -/

/-- An instruction that only skips under a condition adds 2 to pc exactly when the condition holds (R85). -/
theorem completes_of_exec_eq_skipIf {i : Instr} {s : State} {c : Bool} {p : Prop} [Decidable p] (hc : c = true ↔ p)
    (hexec : exec i s = .next (s.skipIf c)) :
    Completes i s fun t => t.pc = (if p then s.pc + 2 else s.pc) ∧ OnlyChanges [.pc] s t := by
  rw [State.skipIf_eq_setPc] at hexec
  exact ⟨_, hexec, if_congr hc rfl rfl, s.onlyChanges_setPc _⟩

/-! ### The statements -/

/-- Settles O20, by the two cases of CALL: the overflow, and the push with its slot, its depth and its target. -/
theorem callPushesTheReturnAddress : Obligations.CallPushesTheReturnAddress := by
  intro nnn s
  rcases execCall_cases nnn s with ⟨hfull, hexec⟩ | ⟨hroom, hexec⟩
  · exact ⟨fun _ => hexec, fun hlt => absurd hlt (by omega)⟩
  · refine ⟨fun hfull => absurd hroom (by omega), fun _ => ⟨_, hexec, ?slot, ?others, rfl, toNat_zext12 nnn, ?frame⟩⟩
    case slot => exact Vector.getElem?_set_self hroom
    case others => exact fun k hk => Vector.getElem?_set_ne hroom hk.symm
    case frame => exact s.onlyChanges_setStack_setSp_setPc _ _ _

/-- Settles O19: each jump's target in numbers, and the frame of loading pc. -/
theorem jumpsLoadTheProgramCounter : Obligations.JumpsLoadTheProgramCounter := fun nnn s =>
  ⟨⟨_, rfl, toNat_zext12 nnn, s.onlyChanges_setPc _⟩,
    ⟨_, rfl, toNat_zext12_add_zext8 nnn (s.getV 0x0#4), s.onlyChanges_setPc _⟩⟩

/-- Settles O22: each of the four is a skip under its comparison. -/
theorem comparingSkips : Obligations.ComparingSkips := fun _ _ _ _ =>
  ⟨completes_of_exec_eq_skipIf beq_iff_eq rfl, completes_of_exec_eq_skipIf bne_iff_ne rfl,
    completes_of_exec_eq_skipIf beq_iff_eq rfl, completes_of_exec_eq_skipIf bne_iff_ne rfl⟩

end Sys2Proof.Machine

/-! PROOFS. Register loads and the add and subtract rows of the 8xy_ family (spec/42_load_alu_random.md R100, R102, R106, R107,
R109), settled from one rule for each shape of write: a register alone, and a result with its flag (R112). -/

namespace Sys2Proof.Machine

/-! ### Frames -/

/-- Replacing the V registers leaves every other piece of state as it was. -/
theorem State.onlyChanges_with_v (s : State) (v : Vector Byte 16) : OnlyChanges [.v] s { s with v := v } := by
  intro p hp
  cases p with
  | v => simp at hp
  | mem => exact fun _ => rfl
  | _ => rfl

theorem State.onlyChanges_setV (s : State) (x : Nib) (b : Byte) : OnlyChanges [.v] s (s.setV x b) :=
  s.onlyChanges_with_v _

theorem State.onlyChanges_writeWithFlag (s : State) (x : Nib) (r : Byte) (c : Bool) :
    OnlyChanges [.v] s (s.writeWithFlag x r c) :=
  s.onlyChanges_with_v _

theorem State.onlyWritesV_setV (s : State) (x : Nib) (b : Byte) : OnlyWritesV [x] s (s.setV x b) :=
  fun _ hz => s.getV_setV_ne b (List.ne_of_not_mem_cons hz)

theorem State.onlyWritesV_writeWithFlag (s : State) (x : Nib) (r : Byte) (c : Bool) :
    OnlyWritesV [x, VF] s (s.writeWithFlag x r c) := by
  intro z hz
  have hx : z ≠ x := List.ne_of_not_mem_cons hz
  have hVF : z ≠ VF := List.ne_of_not_mem_cons (List.not_mem_of_not_mem_cons hz)
  rw [State.getV_writeWithFlag, if_neg hVF, if_neg hx]

/-! ### The result and its flag (R112) -/

/-- The flag is written last, so VF holds it whatever x is. -/
theorem State.getV_writeWithFlag_VF (s : State) (x : Nib) (r : Byte) (c : Bool) :
    (s.writeWithFlag x r c).getV VF = flagByte c := by
  rw [State.getV_writeWithFlag, if_pos rfl]

/-- The result stands in Vx, unless the flag overwrites it. -/
theorem State.getV_writeWithFlag_of_ne (s : State) {x : Nib} (r : Byte) (c : Bool) (hx : x ≠ VF) :
    (s.writeWithFlag x r c).getV x = r := by
  rw [State.getV_writeWithFlag, if_neg hx, if_pos rfl]

/-! ### The values in numbers -/

/-- Subtraction of bytes with the 256 added first, so that nothing is cut off at 0. -/
theorem toNat_sub_byte (a b : Byte) : (a - b).toNat = (a.toNat + 256 - b.toNat) % 256 := by
  have hb : b.toNat < 256 := b.isLt
  rw [BitVec.toNat_sub]
  omega

/-- The carry of R106, in the words of the statement. -/
theorem carry_iff (a b : Byte) : carry a b = true ↔ a.toNat + b.toNat > 255 := decide_eq_true_iff

/-- NOT borrow of R107 and R109: 1 exactly when the minuend reaches the subtrahend. -/
theorem notBorrow_iff (a b : Byte) : notBorrow a b = true ↔ a.toNat ≥ b.toNat := decide_eq_true_iff

/-! ### Instructions by what they write -/

/-- An instruction that only writes Vx leaves its value there and nothing else changed. -/
theorem completes_of_exec_eq_setV {i : Instr} {s : State} {x : Nib} {b : Byte} (hexec : exec i s = .next (s.setV x b)) :
    Completes i s fun t => t.getV x = b ∧ OnlyWritesV [x] s t ∧ OnlyChanges [.v] s t :=
  ⟨_, hexec, s.getV_setV_same x b, s.onlyWritesV_setV x b, s.onlyChanges_setV x b⟩

/-- An instruction that writes a result and its flag: VF says whether the flag's condition holds, Vx holds the result unless it
is VF, and nothing else changes. -/
theorem completes_of_exec_eq_writeWithFlag {i : Instr} {s : State} {x : Nib} {r : Byte} {c : Bool} {n : Nat} {p : Prop}
    [Decidable p] (hr : r.toNat = n) (hc : c = true ↔ p) (hexec : exec i s = .next (s.writeWithFlag x r c)) :
    Completes i s fun t =>
      (x ≠ 0xF#4 → (t.getV x).toNat = n) ∧ t.getV 0xF#4 = (if p then 1 else 0) ∧
      OnlyWritesV [x, 0xF#4] s t ∧ OnlyChanges [.v] s t := by
  refine ⟨_, hexec, fun hx => ?result, ?flag, s.onlyWritesV_writeWithFlag x r c, s.onlyChanges_writeWithFlag x r c⟩
  case result => rw [s.getV_writeWithFlag_of_ne r c hx, hr]
  case flag => exact (s.getV_writeWithFlag_VF x r c).trans (if_congr hc rfl rfl)

/-! ### The statements -/

/-- Settles O25: each of the three writes a result and its flag; the result and the flag's condition are said in numbers. -/
theorem addAndSubtractReportInVF : Obligations.AddAndSubtractReportInVF := fun x y s =>
  ⟨completes_of_exec_eq_writeWithFlag (BitVec.toNat_add (s.getV x) (s.getV y)) (carry_iff (s.getV x) (s.getV y)) rfl,
    completes_of_exec_eq_writeWithFlag (toNat_sub_byte (s.getV x) (s.getV y)) (notBorrow_iff (s.getV x) (s.getV y)) rfl,
    completes_of_exec_eq_writeWithFlag (toNat_sub_byte (s.getV y) (s.getV x)) (notBorrow_iff (s.getV y) (s.getV x)) rfl⟩

/-- Settles O23: both loads write Vx alone. -/
theorem loadsWriteTheDestination : Obligations.LoadsWriteTheDestination := fun _ _ _ _ =>
  ⟨completes_of_exec_eq_setV rfl, completes_of_exec_eq_setV rfl⟩

end Sys2Proof.Machine

/-! PROOFS. `LD I` (spec/43_index_memory.md R120), settled from the address in numbers and the frame of writing I. -/

namespace Sys2Proof.Machine

/-- Writing I leaves every other piece of state as it was. -/
theorem State.onlyChanges_setI (s : State) (w : Word) : OnlyChanges [.i] s (s.setI w) := by
  intro p hp
  cases p with
  | i => simp at hp
  | v | mem => exact fun _ => rfl
  | _ => rfl

/-- Settles O33: I holds the zero-extended address, and writing I is all the instruction does. -/
theorem loadIndexZeroExtends : Obligations.LoadIndexZeroExtends := fun nnn s =>
  ⟨_, rfl, toNat_zext12 nnn, s.onlyChanges_setI _⟩

end Sys2Proof.Machine

/-! PROOFS. `CLS` (spec/44_display.md R130), settled from the grid with no cell on and the frame of its two writes. -/

namespace Sys2Proof.Machine

/-- Writing the grid and then DIRTY leaves every other piece of state as it was. -/
theorem State.onlyChanges_setPix_setDirty (s : State) (g : Grid) (b : Bool) :
    OnlyChanges [.pix, .dirty] s ((s.setPix g).setDirty b) := by
  intro p hp
  cases p with
  | pix | dirty => simp at hp
  | v | mem => exact fun _ => rfl
  | _ => rfl

/-- Settles O39: the grid written is the one with every cell off, DIRTY is set whatever it was, and the two writes are all that
the instruction does. -/
theorem clsClearsTheGrid : Obligations.ClsClearsTheGrid := fun s =>
  ⟨_, rfl, fun cx cy _ _ => Grid.get_off cx cy, rfl, s.onlyChanges_setPix_setDirty _ _⟩

end Sys2Proof.Machine

/-! PROOFS. The moves between V and the timers (spec/45_keypad_timers.md R142, R144, R145), settled from the frames of writing a
timer and one rule for the Step of an instruction that completes. -/

namespace Sys2Proof.Machine

/-! ### Frames -/

/-- Writing DT leaves every other piece of state as it was. -/
theorem State.onlyChanges_setDt (s : State) (b : Byte) : OnlyChanges [.dt] s (s.setDt b) := by
  intro p hp
  cases p with
  | dt => simp at hp
  | v | mem => exact fun _ => rfl
  | _ => rfl

/-- Writing ST leaves every other piece of state as it was. -/
theorem State.onlyChanges_setSt (s : State) (b : Byte) : OnlyChanges [.st] s (s.setSt b) := by
  intro p hp
  cases p with
  | st => simp at hp
  | v | mem => exact fun _ => rfl
  | _ => rfl

/-! ### The Step around an instruction -/

/-- A Step whose instruction completes on the advanced state ends with that instruction's next state and the end of the Step
(R80). -/
theorem stepWith_of_decode_of_exec {c : Config.TimerCoupling} {i : Instr} {s t : State} (hdecode : decode s.fetch = i)
    (hexec : exec i s.advance = .next t) : stepWith c s = .next (t.endStep c) := by
  rw [stepWith, hdecode, hexec]

/-- `SoundActive()` answers whether ST is not 0 (R163), in the words of the statements. -/
theorem hostOp_soundActive (s : State) : hostOp .soundActive s = .next (s, .bool (decide (s.st ≠ 0x00))) := by
  simp only [ne_eq, decide_not]
  rfl

/-- Settles O43: each move by what it writes; its Step is that write on the advanced state and then the tick, so the timer
counted down is the old DT in the first and Vx in the other two. -/
theorem timerMoves : Obligations.TimerMoves := by
  intro x s
  refine ⟨completes_of_exec_eq_setV rfl, ⟨_, rfl, rfl, s.onlyChanges_setDt _⟩, ⟨_, rfl, rfl, s.onlyChanges_setSt _⟩,
    fun hdecode => ⟨_, stepWith_of_decode_of_exec hdecode rfl, ?oldDt, State.toNat_countDown s.dt⟩,
    fun hdecode => ⟨_, stepWith_of_decode_of_exec hdecode rfl, State.toNat_countDown (s.getV x)⟩,
    fun hdecode => ⟨_, stepWith_of_decode_of_exec hdecode rfl, State.toNat_countDown (s.getV x), hostOp_soundActive _⟩⟩
  case oldDt => exact s.advance.getV_setV_same x s.dt

end Sys2Proof.Machine

/-! PROOFS. The faults (spec/60_exceptions.md R150 to R154): which instruction raises which, lifted from the instruction to the
Step and to the host operation, and the bound of LoadProgram (R184). -/

namespace Sys2Proof.Machine

/-! ### Faults of an instruction -/

/-- What the outcome of an instruction can be: a next state, the fault of a CALL on a full stack (R151), or the fault of a RET on
an empty one (R152). -/
theorem exec_cases (i : Instr) (s : State) :
    (∃ t, exec i s = .next t) ∨
    ((∃ nnn, i = .call nnn) ∧ s.sp.val = 16 ∧ exec i s = .fault (.stackOverflow s.pc0)) ∨
    (i = .ret ∧ s.sp.val = 0 ∧ exec i s = .fault (.stackUnderflow s.pc0)) := by
  cases i with
  | call nnn =>
    rcases execCall_cases nnn s with ⟨hfull, hexec⟩ | ⟨_, hexec⟩
    · exact .inr (.inl ⟨⟨nnn, rfl⟩, hfull, hexec⟩)
    · exact .inl ⟨_, hexec⟩
  | ret =>
    rcases execRet_cases s with ⟨hempty, hexec⟩ | ⟨_, hexec⟩
    · exact .inr (.inr ⟨rfl, hempty, hexec⟩)
    · exact .inl ⟨_, hexec⟩
  | ldVxK x =>
    rcases execLdVxK_cases x s with ⟨_, hexec⟩ | ⟨_, _, hexec⟩
    · exact .inl ⟨_, hexec⟩
    · exact .inl ⟨_, hexec⟩
  | _ => exact .inl ⟨_, rfl⟩

/-- Every arm of `exec` has a meaning. -/
theorem exec_ne_refused (i : Instr) (s : State) (r : Refusal) : exec i s ≠ .refused r := by
  rcases exec_cases i s with ⟨_, hexec⟩ | ⟨_, _, hexec⟩ | ⟨_, _, hexec⟩
  all_goals simp [hexec]

theorem exec_call_of_full {s : State} (nnn : Addr12) (hfull : s.sp.val = 16) :
    exec (.call nnn) s = .fault (.stackOverflow s.pc0) := by
  rcases execCall_cases nnn s with ⟨_, hexec⟩ | ⟨hroom, _⟩
  · exact hexec
  · exact absurd hfull hroom.ne

theorem exec_ret_of_empty {s : State} (hempty : s.sp.val = 0) : exec .ret s = .fault (.stackUnderflow s.pc0) := by
  rcases execRet_cases s with ⟨_, hexec⟩ | ⟨hpos, _⟩
  · exact hexec
  · exact absurd hempty hpos.ne'

/-- Which instruction raises which fault in which state (R151, R152); there is no third way to raise one. -/
theorem exec_fault_iff (i : Instr) (s : State) (f : Fault) :
    exec i s = .fault f ↔
      ((∃ nnn, i = .call nnn) ∧ s.sp.val = 16 ∧ f = .stackOverflow s.pc0) ∨
      (i = .ret ∧ s.sp.val = 0 ∧ f = .stackUnderflow s.pc0) := by
  constructor
  · intro hfault
    rcases exec_cases i s with ⟨_, hexec⟩ | ⟨hcall, hfull, hexec⟩ | ⟨hret, hempty, hexec⟩
    · rw [hfault] at hexec
      cases hexec
    · exact .inl ⟨hcall, hfull, Host.Outcome.fault.inj (hfault.symm.trans hexec)⟩
    · exact .inr ⟨hret, hempty, Host.Outcome.fault.inj (hfault.symm.trans hexec)⟩
  · rintro (⟨⟨nnn, rfl⟩, hfull, rfl⟩ | ⟨rfl, hempty, rfl⟩)
    · exact exec_call_of_full nnn hfull
    · exact exec_ret_of_empty hempty

/-! ### Faults of a Step -/

@[simp] theorem State.advance_sp (s : State) : s.advance.sp = s.sp := rfl

/-- A Step faults exactly as its instruction does on the advanced state (R82). -/
theorem stepWith_fault_iff_exec (c : Config.TimerCoupling) (s : State) (f : Fault) :
    stepWith c s = .fault f ↔ exec (decode s.fetch) s.advance = .fault f := by
  rcases stepWith_cases c s with ⟨t, hexec, hstep⟩ | ⟨e, hexec, hstep⟩ | ⟨r, hexec, hstep⟩
  all_goals simp [hexec, hstep]

/-- The faults of a Step: pc0 of the advanced state is the old pc, the address of the instruction. -/
theorem stepWith_fault_iff (c : Config.TimerCoupling) (s : State) (f : Fault) :
    stepWith c s = .fault f ↔
      ((∃ nnn, decode s.fetch = .call nnn) ∧ s.sp.val = 16 ∧ f = .stackOverflow s.pc) ∨
      (decode s.fetch = .ret ∧ s.sp.val = 0 ∧ f = .stackUnderflow s.pc) := by
  rw [stepWith_fault_iff_exec, exec_fault_iff, State.pc0_advance, State.advance_sp]

theorem stepWith_ne_refused (c : Config.TimerCoupling) (s : State) (r : Refusal) : stepWith c s ≠ .refused r := by
  rcases stepWith_cases c s with ⟨t, _, hstep⟩ | ⟨f, _, hstep⟩ | ⟨q, hexec, _⟩
  · simp [hstep]
  · simp [hstep]
  · exact absurd hexec (exec_ne_refused _ _ q)

/-- LoadError is not among a Step's faults (R154). -/
theorem stepWith_ne_loadError (c : Config.TimerCoupling) (s : State) (n : Nat) : stepWith c s ≠ .fault (.loadError n) := by
  simp [stepWith_fault_iff]

/-- Settles O12: both faults from the characterisation of a Step's faults, and no other stop. -/
theorem stepFaultsExactlyOnStackMisuse : Obligations.StepFaultsExactlyOnStackMisuse := by
  intro s
  refine ⟨fun p => ?overflow, fun p => ?underflow, stepWith_ne_loadError _ s, stepWith_ne_refused _ s⟩
  case overflow =>
    rw [step, stepWith_fault_iff]
    simp only [Fault.stackOverflow.injEq, reduceCtorEq, and_false, or_false]
    tauto
  case underflow =>
    rw [step, stepWith_fault_iff]
    simp only [Fault.stackUnderflow.injEq, reduceCtorEq, and_false, false_or]
    tauto

/-! ### Faults of a host operation -/

/-- `Step` as a host operation answers the fault of the Step, and no other. -/
theorem hostOp_step_fault_iff (s : State) (f : Fault) : hostOp .step s = .fault f ↔ step s = .fault f := by
  change hostStep timerCoupling s = .fault f ↔ stepWith timerCoupling s = .fault f
  cases hstep : stepWith timerCoupling s with
  | next _ | fault _ | refused _ => simp [hostStep, hstep]

theorem hostAfter_of_hostOp_eq_fault {op : HostOp} {s : State} {f : Fault} (hfault : hostOp op s = .fault f) :
    hostAfter op s = s := by
  rw [hostAfter, hfault]

theorem hostOp_loadProgram_of_gt {bytes : List Byte} (s : State) (hlong : bytes.length > 3584) :
    hostOp (.loadProgram bytes) s = .fault (.loadError bytes.length) :=
  if_pos hlong

theorem hostOp_loadProgram_of_le {bytes : List Byte} (s : State) (hfits : bytes.length ≤ 3584) :
    hostOp (.loadProgram bytes) s = .next (s.storeBytes Config.programBase bytes, .nothing) :=
  if_neg (not_lt_of_ge hfits)

/-- Settles O46: LoadProgram by its two cases, and a Step by the faults it can raise. -/
theorem loadErrorWritesNothing : Obligations.LoadErrorWritesNothing := by
  intro bytes s
  refine ⟨fun hlong => ?tooLong, fun hfits => ⟨_, hostOp_loadProgram_of_le s hfits⟩, fun n hstep => ?step⟩
  case tooLong =>
    have hfault := hostOp_loadProgram_of_gt s hlong
    exact ⟨hfault, hostAfter_of_hostOp_eq_fault hfault⟩
  case step => exact stepWith_ne_loadError _ s n ((hostOp_step_fault_iff s _).mp hstep)

end Sys2Proof.Machine

/-! PROOFS. Decoding and encoding (spec/30_encoding.md R60 to R68): the two are inverse on well-formed instructions, and the
opcode map names the decoded instruction. -/

namespace Sys2Proof

/-! ### Encoding a decoded word -/

theorem encNNN_of_fieldT {w : Word} {t : Nib} (ht : fieldT w = t) : encNNN t (fieldNNN w) = w := by
  rw [← ht, encNNN_fields]

theorem encXNN_of_fieldT {w : Word} {t : Nib} (ht : fieldT w = t) : encXNN t (fieldX w) (fieldNN w) = w := by
  rw [← ht, encXNN_fields]

theorem encXNN_of_fieldT_fieldNN {w : Word} {t : Nib} {nn : Byte} (ht : fieldT w = t) (hnn : fieldNN w = nn) :
    encXNN t (fieldX w) nn = w := by
  rw [← hnn, encXNN_of_fieldT ht]

theorem encXYN_of_fieldT {w : Word} {t : Nib} (ht : fieldT w = t) : encXYN t (fieldX w) (fieldY w) (fieldN w) = w := by
  rw [← ht, encXYN_fields]

theorem encXYN_of_fieldT_fieldN {w : Word} {t n : Nib} (ht : fieldT w = t) (hn : fieldN w = n) :
    encXYN t (fieldX w) (fieldY w) n = w := by
  rw [← hn, encXYN_of_fieldT ht]

theorem encode_decode0 (w : Word) : encode (decode0 w) = w := by
  unfold decode0
  split
  next hcls => exact hcls.symm
  next =>
    split
    next hret => exact hret.symm
    next => rfl

theorem encode_decode5 {w : Word} (ht : fieldT w = 0x5#4) : encode (decode5 w) = w := by
  unfold decode5
  split
  next hn => exact encXYN_of_fieldT_fieldN ht hn
  next => rfl

theorem encode_decode8 {w : Word} (ht : fieldT w = 0x8#4) : encode (decode8 w) = w := by
  unfold decode8
  split
  case h_10 => rfl
  all_goals exact encXYN_of_fieldT_fieldN ht (by assumption)

theorem encode_decode9 {w : Word} (ht : fieldT w = 0x9#4) : encode (decode9 w) = w := by
  unfold decode9
  split
  next hn => exact encXYN_of_fieldT_fieldN ht hn
  next => rfl

theorem encode_decodeE {w : Word} (ht : fieldT w = 0xE#4) : encode (decodeE w) = w := by
  unfold decodeE
  split
  case h_3 => rfl
  all_goals exact encXNN_of_fieldT_fieldNN ht (by assumption)

theorem encode_decodeF {w : Word} (ht : fieldT w = 0xF#4) : encode (decodeF w) = w := by
  unfold decodeF
  split
  case h_10 => rfl
  all_goals exact encXNN_of_fieldT_fieldNN ht (by assumption)

/-- `decode` drops no bit (R64). -/
theorem encode_decode (w : Word) : encode (decode w) = w := by
  unfold decode
  split
  case h_1 => exact encode_decode0 w
  case h_6 ht => exact encode_decode5 ht
  case h_9 ht => exact encode_decode8 ht
  case h_10 ht => exact encode_decode9 ht
  case h_14 ht => exact encXYN_of_fieldT ht
  case h_15 ht => exact encode_decodeE ht
  case h_16 =>  -- family F, the default of the match
    have ht : fieldT w = 0xF#4 := by
      simp only [imp_false] at *
      bv_omega
    exact encode_decodeF ht
  case h_2 ht | h_3 ht | h_11 ht | h_12 ht => exact encNNN_of_fieldT ht
  case h_4 ht | h_5 ht | h_7 ht | h_8 ht | h_13 ht => exact encXNN_of_fieldT ht

/-! ### Decoding an encoded instruction -/

/-- The 34 instructions of the table are read back from their words, with every operand (R65). -/
theorem decode_encode_of_ne_unknown {i : Instr} (hi : ∀ op, i ≠ .unknown op) : decode (encode i) = i := by
  cases i with
  | unknown op => exact absurd rfl (hi op)
  | cls | ret => rfl
  | seReg | sneReg => simp [encode, decode, decode5, decode9]
  | ldReg | orReg | andReg | xorReg | addReg | sub | shr | subn | shl => simp [encode, decode, decode8]
  | skp | sknp => simp [encode, decode, decodeE]
  | ldVxDt | ldVxK | ldDtVx | ldStVx | addI | ldIF | bcd | ldMemVx | ldVxMem => simp [encode, decode, decodeF]
  | _ => simp [encode, decode]

/-! The list of unknown words is written with raw bit ranges; they are the fields of R61. -/

theorem extractLsb'_eq_fieldT (op : Word) : op.extractLsb' 12 4 = fieldT op := rfl
theorem extractLsb'_eq_fieldN (op : Word) : op.extractLsb' 0 4 = fieldN op := rfl
theorem extractLsb'_eq_fieldNN (op : Word) : op.extractLsb' 0 8 = fieldNN op := rfl

/-- The word of an instruction of the table is none of the unknown words that R68 lists. -/
theorem isUnknownWord_encode_of_ne_unknown {i : Instr} (hi : ∀ op, i ≠ .unknown op) :
    isUnknownWord (encode i) = false := by
  cases i with
  | unknown op => exact absurd rfl (hi op)
  | cls | ret => rfl
  | _ => simp [encode, isUnknownWord, extractLsb'_eq_fieldT, extractLsb'_eq_fieldN, extractLsb'_eq_fieldNN]

/-! ### The unknown words (R68) -/

/-- An unknown opcode keeps the word it was decoded from. -/
theorem eq_of_decode_eq_unknown {w op : Word} (h : decode w = .unknown op) : op = w := by
  have hw := encode_decode w
  rwa [h] at hw

theorem ne_unknown_of_decode_ne {w : Word} (h : decode w ≠ .unknown w) : ∀ op, decode w ≠ .unknown op :=
  fun _ hop => h (eq_of_decode_eq_unknown hop ▸ hop)

/-- Where a family has words without a row, the decoder's default is reached by the words that R68 lists. -/
theorem isUnknownWord_of_decode {w : Word} (h : decode w = .unknown w) : isUnknownWord w = true := by
  unfold decode at h
  split at h
  case h_1 =>  -- family 0
    unfold decode0 at h
    split_ifs at h
    simp [isUnknownWord, extractLsb'_eq_fieldT, *]
  case h_6 =>  -- family 5
    unfold decode5 at h
    split_ifs at h
    simp [isUnknownWord, extractLsb'_eq_fieldT, extractLsb'_eq_fieldN, *]
  case h_9 =>  -- family 8
    unfold decode8 at h
    split at h
    case h_10 =>
      simp_all [isUnknownWord, extractLsb'_eq_fieldT, extractLsb'_eq_fieldN]
      bv_omega
    all_goals cases h
  case h_10 =>  -- family 9
    unfold decode9 at h
    split_ifs at h
    simp [isUnknownWord, extractLsb'_eq_fieldT, extractLsb'_eq_fieldN, *]
  case h_15 =>  -- family E
    unfold decodeE at h
    split at h
    case h_3 => simp_all [isUnknownWord, extractLsb'_eq_fieldT, extractLsb'_eq_fieldNN]
    all_goals cases h
  case h_16 =>  -- family F, the default of the match
    have ht : fieldT w = 0xF#4 := by
      simp only [imp_false] at *
      bv_omega
    unfold decodeF at h
    split at h
    case h_10 => simp_all [isUnknownWord, extractLsb'_eq_fieldT, extractLsb'_eq_fieldNN]
    all_goals cases h
  all_goals cases h

/-- The decoder's unknown words are those the table of R68 lists, family by family. -/
theorem decode_eq_unknown_iff (w : Word) : decode w = .unknown w ↔ isUnknownWord w = true := by
  refine ⟨isUnknownWord_of_decode, fun hw => ?_⟩
  by_contra hne
  have hknown : ∀ op, decode w ≠ .unknown op := ne_unknown_of_decode_ne hne
  have hfalse := isUnknownWord_encode_of_ne_unknown hknown
  rw [encode_decode, hw] at hfalse
  cases hfalse

/-- Only an unknown opcode can fail to be well formed. -/
theorem wf_of_ne_unknown {i : Instr} (hi : ∀ op, i ≠ .unknown op) : i.wf = true := by
  cases i with
  | unknown op => exact absurd rfl (hi op)
  | _ => rfl

theorem wf_decode (w : Word) : (decode w).wf = true := by
  by_cases h : decode w = .unknown w
  · rw [h]
    exact isUnknownWord_of_decode h
  · exact wf_of_ne_unknown (ne_unknown_of_decode_ne h)

theorem decode_encode {i : Instr} (hi : i.wf = true) : decode (encode i) = i := by
  by_cases h : ∃ op, i = .unknown op
  · obtain ⟨op, rfl⟩ := h
    exact (decode_eq_unknown_iff op).2 hi
  · exact decode_encode_of_ne_unknown fun op hop => h ⟨op, hop⟩

/-- Settles O2: an instruction of the table by its fields, an unknown opcode by the characterisation of the unknown words. -/
theorem decodingAnEncodedInstructionGivesItBack : Obligations.DecodingAnEncodedInstructionGivesItBack := by
  intro i hi
  refine ⟨decode_encode hi, fun rest => ?_⟩
  rw [encodeBytes, decodeBytes_bytesOfWord, decode_encode hi]

/-- Settles O3: each family's fields put together again give the word, so a word decoded as unknown is an unknown word. -/
theorem encodingADecodedWordGivesItBack : Obligations.EncodingADecodedWordGivesItBack := fun w =>
  ⟨wf_decode w, encode_decode w⟩

/-! ### The opcode map (R65) -/

theorem encodedRow (i : Instr) : Laws.EncodedRow.Statement i := by
  open Laws.EncodedRow in
  cases i
  exacts [cls, ret, jp _, call _, seImm _ _, sneImm _ _, seReg _ _, ldImm _ _, addImm _ _, ldReg _ _, orReg _ _,
    andReg _ _, xorReg _ _, addReg _ _, sub _ _, shr _ _, subn _ _, shl _ _, sneReg _ _, ldI _, jpV0 _, rnd _ _,
    drw _ _ _, skp _, sknp _, ldVxDt _, ldVxK _, ldDtVx _, ldStVx _, addI _, ldIF _, bcd _, ldMemVx _, ldVxMem _, unknown _]

/-- Every instruction but the unknown opcode has a row in the map. -/
theorem exists_row {i : Instr} (hi : ∀ op, i ≠ .unknown op) : ∃ r ∈ opcodeTable, r.mnemonic = i.mnemonic := by
  cases i with
  | unknown op => exact absurd rfl (hi op)
  | _ =>
    simp only [Instr.mnemonic]
    decide

/-- The bits by which the decoder chooses among the instructions of a family (R64): the whole word in family 0, op[3:0] in
families 5, 8 and 9, op[7:0] in E and F, and t alone elsewhere. -/
def selectorMask (t : Nib) : Word :=
  match t with
  | 0x0#4 => 0xFFFF#16
  | 0x5#4 | 0x8#4 | 0x9#4 => 0xF00F#16
  | 0xE#4 | 0xF#4 => 0xF0FF#16
  | _ => 0xF000#16

theorem fieldT_selectorMask : ∀ t, fieldT (selectorMask t) = BitVec.allOnes 4 := by decide

theorem fieldT_and (w m : Word) : fieldT (w &&& m) = fieldT w &&& fieldT m := BitVec.extractLsb'_and

theorem fieldT_eq_of_and_selectorMask {w v : Word} {t : Nib} (h : w &&& selectorMask t = v &&& selectorMask t) :
    fieldT w = fieldT v := by
  have := congrArg fieldT h
  rwa [fieldT_and, fieldT_and, fieldT_selectorMask, BitVec.and_allOnes, BitVec.and_allOnes] at this

theorem fieldN_eq_of_and_F00F {w v : Word} (h : w &&& 0xF00F#16 = v &&& 0xF00F#16) : fieldN w = fieldN v := by
  simpa [and_F00F] using congrArg fieldN h

theorem fieldNN_eq_of_and_F0FF {w v : Word} (h : w &&& 0xF0FF#16 = v &&& 0xF0FF#16) : fieldNN w = fieldNN v := by
  simpa [and_F0FF] using congrArg fieldNN h

/-- Two words that agree on the bits the decoder looks at stand for instructions of the same row. -/
theorem mnemonic_decode_congr {w v : Word} (h : w &&& selectorMask (fieldT v) = v &&& selectorMask (fieldT v)) :
    (decode w).mnemonic = (decode v).mnemonic := by
  have ht : fieldT w = fieldT v := fieldT_eq_of_and_selectorMask h
  unfold decode
  rw [ht]
  split
  case h_1 hv =>  -- family 0
    rw [hv] at h
    simp only [selectorMask, and_FFFF] at h
    rw [h]
  case h_6 hv =>  -- family 5
    rw [hv] at h
    unfold decode5
    rw [fieldN_eq_of_and_F00F h]
    split <;> rfl
  case h_9 hv =>  -- family 8
    rw [hv] at h
    unfold decode8
    rw [fieldN_eq_of_and_F00F h]
    split <;> rfl
  case h_10 hv =>  -- family 9
    rw [hv] at h
    unfold decode9
    rw [fieldN_eq_of_and_F00F h]
    split <;> rfl
  case h_15 hv =>  -- family E
    rw [hv] at h
    unfold decodeE
    rw [fieldNN_eq_of_and_F0FF h]
    split <;> rfl
  case h_16 =>  -- family F, the default of the match
    have hv : fieldT v = 0xF#4 := by
      simp only [imp_false] at *
      bv_omega
    rw [hv] at h
    unfold decodeF
    rw [fieldNN_eq_of_and_F0FF h]
    split <;> rfl
  all_goals rfl

/-- Each row checks the bits the decoder looks at, and its own value decodes to its instruction. -/
theorem opcodeTable_agrees_with_decode : ∀ r ∈ opcodeTable,
    r.mask = selectorMask (fieldT r.value) ∧ r.value &&& r.mask = r.value ∧ (decode r.value).mnemonic = r.mnemonic := by
  decide

theorem mnemonic_decode_of_selects {r : OpcodeRow} (hr : r ∈ opcodeTable) {w : Word} (hsel : r.selects w = true) :
    (decode w).mnemonic = r.mnemonic := by
  obtain ⟨hmask, hvalue, hname⟩ := opcodeTable_agrees_with_decode r hr
  rw [← hname]
  apply mnemonic_decode_congr
  rw [← hmask, hvalue]
  exact eq_of_beq hsel

theorem opcodeTable_mnemonic_nodup : (opcodeTable.map OpcodeRow.mnemonic).Nodup := by decide

theorem mnemonic_ne_unknown : ∀ r ∈ opcodeTable, r.mnemonic ≠ "UNKNOWN" := by decide

/-- Settles O4: a selected row names the decoded instruction, and names are not repeated, so one row is selected at most; a known
instruction has a row and its word selects it. -/
theorem opcodeMapSelectsTheInstruction : Obligations.OpcodeMapSelectsTheInstruction := by
  intro w
  refine ⟨fun r hr => mnemonic_decode_of_selects hr, fun r hr q hq hsel hsel' => ?atMostOne, ?none⟩
  case atMostOne =>
    apply List.inj_on_of_nodup_map opcodeTable_mnemonic_nodup hr hq
    rw [← mnemonic_decode_of_selects hr hsel, mnemonic_decode_of_selects hq hsel']
  case none =>
    constructor
    · intro hnone
      by_contra hne
      have hknown : ∀ op, decode w ≠ .unknown op := ne_unknown_of_decode_ne hne
      obtain ⟨r, hr, hname⟩ := exists_row hknown
      have hsel := encodedRow (decode w) r hr hname
      rw [encode_decode, hnone r hr] at hsel
      cases hsel
    · intro hunknown r hr
      by_contra hsel
      have hname := mnemonic_decode_of_selects hr (Bool.eq_true_of_not_eq_false hsel)
      rw [hunknown] at hname
      exact mnemonic_ne_unknown r hr hname.symm

/-- Settles O6: the twenty words, each decoded. -/
theorem sampleWordsDecodeAsTheTableSays : Obligations.SampleWordsDecodeAsTheTableSays := by
  unfold Obligations.SampleWordsDecodeAsTheTableSays
  decide

end Sys2Proof

/-! PROOFS. What an instruction and a Step can change, said once: the frame of every instruction (spec/10_state.md R25), and the
rules by which frames are put together. -/

namespace Sys2Proof.Machine

/-! ### Rules for frames -/

theorem Piece.Same.refl (p : Piece) (s : State) : p.Same s s := by
  cases p with
  | v | mem => exact fun _ => rfl
  | _ => rfl

theorem Piece.Same.trans {p : Piece} {s t u : State} (hst : p.Same s t) (htu : p.Same t u) : p.Same s u := by
  cases p with
  | v | mem => exact fun a => (htu a).trans (hst a)
  | _ => exact Eq.trans htu hst

theorem OnlyChanges.refl (ps : List Piece) (s : State) : OnlyChanges ps s s := fun p _ => .refl p s

theorem OnlyChanges.mono {ps qs : List Piece} {s t : State} (h : OnlyChanges ps s t) (hsub : ps ⊆ qs) :
    OnlyChanges qs s t :=
  fun p hp => h p fun hmem => hp (hsub hmem)

theorem OnlyChanges.trans {ps qs : List Piece} {s t u : State} (hst : OnlyChanges ps s t) (htu : OnlyChanges qs t u) :
    OnlyChanges (ps ++ qs) s u :=
  fun p hp => (hst p fun hmem => hp (List.mem_append_left _ hmem)).trans (htu p fun hmem => hp (List.mem_append_right _ hmem))

/-- A piece that turns out unchanged need not be named. -/
theorem OnlyChanges.of_cons {p : Piece} {ps : List Piece} {s t : State} (h : OnlyChanges (p :: ps) s t) (hp : p.Same s t) :
    OnlyChanges ps s t := by
  intro q hq
  by_cases hqp : q = p
  · exact hqp ▸ hp
  · exact h q (List.not_mem_cons_of_ne_of_not_mem hqp hq)

/-! ### Frames of the writes -/

theorem State.onlyChanges_setDraws (s : State) (n : Nat) : OnlyChanges [.draws] s (s.setDraws n) := by
  intro p hp
  cases p with
  | draws => simp at hp
  | v | mem => exact fun _ => rfl
  | _ => rfl

theorem State.onlyChanges_setKey (s : State) (k : Vector Bool 16) : OnlyChanges [.key] s (s.setKey k) := by
  intro p hp
  cases p with
  | key => simp at hp
  | v | mem => exact fun _ => rfl
  | _ => rfl

theorem State.onlyChanges_setDirty (s : State) (b : Bool) : OnlyChanges [.dirty] s (s.setDirty b) := by
  intro p hp
  cases p with
  | dirty => simp at hp
  | v | mem => exact fun _ => rfl
  | _ => rfl

/-- The two writes of a RET. -/
theorem State.onlyChanges_setSp_setPc (s : State) (sp : Fin 17) (w : Word) :
    OnlyChanges [.pc, .sp] s ((s.setSp sp).setPc w) := by
  intro p hp
  cases p with
  | pc | sp => simp at hp
  | v | mem => exact fun _ => rfl
  | _ => rfl

theorem State.onlyChanges_skipIf (s : State) (c : Bool) : OnlyChanges [.pc] s (s.skipIf c) := by
  rw [s.skipIf_eq_setPc]
  exact s.onlyChanges_setPc _

theorem State.onlyChanges_storeBytes (s : State) (a : Nat) (bs : List Byte) : OnlyChanges [.mem] s (s.storeBytes a bs) := by
  rw [s.storeBytes_eq_setMem]
  exact s.onlyChanges_setMem _

theorem State.onlyChanges_storeRegs (s : State) (n : Nat) : OnlyChanges [.mem] s (State.storeRegs n s) := by
  rw [State.storeRegs_eq_setMem]
  exact s.onlyChanges_setMem _

theorem State.onlyChanges_loadRegs (s : State) (n : Nat) : OnlyChanges [.v] s (State.loadRegs n s) := by
  rw [State.loadRegs_eq_v]
  exact s.onlyChanges_with_v _

theorem State.onlyChanges_setFlag_setPix_setDirty (s : State) (c : Bool) (g : Grid) (b : Bool) :
    OnlyChanges [.v, .pix, .dirty] s (((s.setFlag c).setPix g).setDirty b) :=
  (s.onlyChanges_setV VF _).trans (State.onlyChanges_setPix_setDirty _ g b)

theorem State.onlyChanges_advance (s : State) : OnlyChanges [.pc] s s.advance := s.onlyChanges_setPc _

/-- The end of a Step touches the timers and the draw's index only, in both couplings (R83, R84). -/
theorem State.onlyChanges_endStep (s : State) (c : Config.TimerCoupling) : OnlyChanges [.dt, .st, .draws] s (s.endStep c) := by
  cases c with
  | perStep => exact s.onlyChanges_tickTimers.trans (State.onlyChanges_setDraws _ _)
  | external => exact (s.onlyChanges_setDraws _).mono (by decide)

/-! ### The frame of every instruction -/

/-- The pieces an instruction may change (the table of R25). -/
def mayChange : Instr → List Piece
  | .cls => [.pix, .dirty]
  | .ret => [.pc, .sp]
  | .call _ => [.pc, .sp, .stack]
  | .jp _ | .jpV0 _ | .seImm _ _ | .sneImm _ _ | .seReg _ _ | .sneReg _ _ | .skp _ | .sknp _ => [.pc]
  | .ldImm _ _ | .addImm _ _ | .ldReg _ _ | .orReg _ _ | .andReg _ _ | .xorReg _ _ | .addReg _ _ | .sub _ _ | .shr _ _
  | .subn _ _ | .shl _ _ | .rnd _ _ | .ldVxDt _ | .ldVxMem _ => [.v]
  | .ldVxK _ => [.pc, .v]
  | .ldI _ | .addI _ | .ldIF _ => [.i]
  | .drw _ _ _ => [.v, .pix, .dirty]
  | .ldDtVx _ => [.dt]
  | .ldStVx _ => [.st]
  | .bcd _ | .ldMemVx _ => [.mem]
  | .unknown _ => []

theorem exec_onlyChanges {i : Instr} {s t : State} (h : exec i s = .next t) : OnlyChanges (mayChange i) s t := by
  cases i with
  | cls => cases h; exact s.onlyChanges_setPix_setDirty _ _
  | ret =>
    rcases execRet_cases s with ⟨_, hexec⟩ | ⟨_, hexec⟩
    · cases h.symm.trans hexec
    · cases h.symm.trans hexec
      exact s.onlyChanges_setSp_setPc _ _
  | call nnn =>
    rcases execCall_cases nnn s with ⟨_, hexec⟩ | ⟨_, hexec⟩
    · cases h.symm.trans hexec
    · cases h.symm.trans hexec
      exact s.onlyChanges_setStack_setSp_setPc _ _ _
  | ldVxK x =>
    rcases execLdVxK_cases x s with ⟨_, hexec⟩ | ⟨k, _, hexec⟩
    · cases h.symm.trans hexec
      exact (s.onlyChanges_setPc _).mono (by simp [mayChange])
    · cases h.symm.trans hexec
      exact (s.onlyChanges_setV x _).mono (by simp [mayChange])
  | jp | jpV0 => cases h; exact s.onlyChanges_setPc _
  | seImm | sneImm | seReg | sneReg | skp | sknp => cases h; exact s.onlyChanges_skipIf _
  | ldImm x | addImm x | ldReg x | orReg x | andReg x | xorReg x | rnd x | ldVxDt x => cases h; exact s.onlyChanges_setV x _
  | addReg x | sub x | shr x | subn x | shl x => cases h; exact s.onlyChanges_writeWithFlag x _ _
  | ldVxMem => cases h; exact s.onlyChanges_loadRegs _
  | ldI | addI | ldIF => cases h; exact s.onlyChanges_setI _
  | drw => cases h; exact s.onlyChanges_setFlag_setPix_setDirty _ _ _
  | ldDtVx => cases h; exact s.onlyChanges_setDt _
  | ldStVx => cases h; exact s.onlyChanges_setSt _
  | bcd => cases h; exact s.onlyChanges_storeBytes _ _
  | ldMemVx => cases h; exact s.onlyChanges_storeRegs _
  | unknown => cases h; exact .refl _ s

/-- A Step that returns OK may change pc, what its instruction changes, the timers and the draw's index. -/
theorem stepWith_onlyChanges {c : Config.TimerCoupling} {s t : State} (h : stepWith c s = .next t) :
    OnlyChanges (Piece.pc :: (mayChange (decode s.fetch) ++ [Piece.dt, .st, .draws])) s t := by
  obtain ⟨u, hexec, rfl⟩ := stepWith_next h
  exact s.onlyChanges_advance.trans ((exec_onlyChanges hexec).trans (u.onlyChanges_endStep c))

end Sys2Proof.Machine

/-! PROOFS. The invariant (spec/20_memory.md, notes/assumptions/27.md): memory keeps its canonical form at Reset, in every Step
and in every sequence of host operations, and no operation but SetKey writes KEY (spec/10_state.md R20). -/

namespace Sys2Proof.Machine

/-! ### A Step -/

/-- Memory, as data, is what it was, except after the two instructions that store (R25). -/
theorem exec_mem {i : Instr} {s t : State} (h : exec i s = .next t) :
    t.mem = s.mem ∨ (∃ x, i = .bcd x) ∨ ∃ x, i = .ldMemVx x := by
  cases i with
  | bcd x => exact .inr (.inl ⟨x, rfl⟩)
  | ldMemVx x => exact .inr (.inr ⟨x, rfl⟩)
  | ret =>
    rcases execRet_cases s with ⟨_, hexec⟩ | ⟨_, hexec⟩
    all_goals cases h.symm.trans hexec
    exact .inl rfl
  | call nnn =>
    rcases execCall_cases nnn s with ⟨_, hexec⟩ | ⟨_, hexec⟩
    all_goals cases h.symm.trans hexec
    exact .inl rfl
  | ldVxK x =>
    rcases execLdVxK_cases x s with ⟨_, hexec⟩ | ⟨_, _, hexec⟩
    all_goals cases h.symm.trans hexec
    all_goals exact .inl rfl
  | seImm | sneImm | seReg | sneReg | skp | sknp =>
    cases h
    rw [State.skipIf_eq_setPc]
    exact .inl rfl
  | ldVxMem => cases h; exact .inl (State.loadRegs_mem _ s)
  | _ => cases h; exact .inl rfl

theorem exec_keeps_Inv {i : Instr} {s t : State} (hs : s.Inv) (h : exec i s = .next t) : t.Inv := by
  rcases exec_mem h with hmem | ⟨x, rfl⟩ | ⟨x, rfl⟩
  · exact (congrArg Memory.wf hmem).trans hs
  · cases h
    exact State.wf_storeBytes hs _ _
  · cases h
    exact State.wf_storeRegs hs _

theorem stepWith_keeps_Inv {c : Config.TimerCoupling} {s t : State} (hs : s.Inv) (h : stepWith c s = .next t) : t.Inv := by
  obtain ⟨u, hexec, rfl⟩ := stepWith_next h
  have hu : u.Inv := exec_keeps_Inv (s := s.advance) hs hexec
  rwa [State.Inv, State.endStep_mem]

/-- Settles O50: nothing is listed in memory after Reset. -/
theorem resetMeetsTheInvariant : Obligations.ResetMeetsTheInvariant := fun _ => rfl

/-- Settles O51: the two instructions that store keep the canonical form, the others leave memory as it was, and so do the advance
and the end of the Step. -/
theorem everyStepKeepsTheInvariant : Obligations.EveryStepKeepsTheInvariant := fun _ _ _ => stepWith_keeps_Inv

/-! ### Host operations -/

theorem hostAfter_of_hostOp_eq_next {op : HostOp} {s t : State} {v : HostValue} (hok : hostOp op s = .next (t, v)) :
    hostAfter op s = t := by
  rw [hostAfter, hok]

theorem hostAfter_of_hostOp_eq_refused {op : HostOp} {s : State} {r : Refusal} (hrefused : hostOp op s = .refused r) :
    hostAfter op s = s := by
  rw [hostAfter, hrefused]

theorem hostOp_step_of_next {s t : State} (hstep : step s = .next t) : hostOp .step s = .next (t, .nothing) := by
  change hostStep timerCoupling s = _
  rw [hostStep, ← step, hstep]

theorem hostOp_setKey_of_lt {k : Nat} (hk : k < 16) (b : Bool) (s : State) :
    hostOp (.setKey k b) s = .next (s.setKey (s.key.set k b hk), .nothing) :=
  dif_pos hk

theorem hostOp_setKey_of_ge {k : Nat} (hk : 16 ≤ k) (b : Bool) (s : State) :
    hostOp (.setKey k b) s = .refused (.setKeyOutOfRange k) :=
  dif_neg (not_lt_of_ge hk)

theorem hostOp_readPixel_of_lt {cx cy : Nat} (h : cx < 64 ∧ cy < 32) (s : State) :
    hostOp (.readPixel cx cy) s = .next (s, .bool (s.pix.get cx cy)) :=
  if_pos h

theorem hostOp_readPixel_of_not_lt {cx cy : Nat} (h : ¬(cx < 64 ∧ cy < 32)) (s : State) :
    hostOp (.readPixel cx cy) s = .refused (.readPixelOutOfRange cx cy) :=
  if_neg h

/-- What every host operation leaves (R160 to R164, R180, R184): what each one that answers OK writes, and the old state else. -/
theorem hostAfter_eq_cases (op : HostOp) (s : State) :
    (op = .reset ∧ hostAfter op s = (State.resetWith s.key).setDraws s.draws) ∨
    (∃ bytes, op = .loadProgram bytes ∧ hostAfter op s = s.storeBytes Config.programBase bytes) ∨
    (op = .step ∧ step s = .next (hostAfter op s)) ∨
    (∃ k b keys, op = .setKey k b ∧ hostAfter op s = s.setKey keys) ∨
    (op = .consumeDirty ∧ hostAfter op s = s.setDirty false) ∨
    hostAfter op s = s := by
  cases op with
  | reset => exact .inl ⟨rfl, rfl⟩
  | loadProgram bytes =>
    by_cases hlen : bytes.length > 3584
    · simp [hostAfter_of_hostOp_eq_fault (hostOp_loadProgram_of_gt s hlen)]
    · simp [hostAfter_of_hostOp_eq_next (hostOp_loadProgram_of_le s (Nat.le_of_not_gt hlen))]
  | step =>
    cases hstep : step s with
    | next t => simp [hostAfter_of_hostOp_eq_next (hostOp_step_of_next hstep)]
    | fault f => simp [hostAfter_of_hostOp_eq_fault ((hostOp_step_fault_iff s f).2 hstep)]
    | refused r => exact absurd hstep (stepWith_ne_refused _ s r)
  | setKey k b =>
    by_cases hk : k < 16
    · simp [hostAfter_of_hostOp_eq_next (hostOp_setKey_of_lt hk b s)]
    · simp [hostAfter_of_hostOp_eq_refused (hostOp_setKey_of_ge (Nat.le_of_not_lt hk) b s)]
  | readPixel cx cy =>
    by_cases h : cx < 64 ∧ cy < 32
    · simp [hostAfter_of_hostOp_eq_next (hostOp_readPixel_of_lt h s)]
    · simp [hostAfter_of_hostOp_eq_refused (hostOp_readPixel_of_not_lt h s)]
  | consumeDirty => exact .inr (.inr (.inr (.inr (.inl ⟨rfl, rfl⟩))))
  | soundActive | tickTimers => exact .inr (.inr (.inr (.inr (.inr rfl))))

theorem hostAfter_keeps_Inv {s : State} (hs : s.Inv) (op : HostOp) : (hostAfter op s).Inv := by
  rcases hostAfter_eq_cases op s with
    ⟨_, h⟩ | ⟨bytes, _, h⟩ | ⟨_, h⟩ | ⟨k, b, keys, _, h⟩ | ⟨_, h⟩ | h
  case inr.inr.inl => exact stepWith_keeps_Inv hs h
  all_goals rw [h]
  case inl => rfl
  case inr.inl => exact State.wf_storeBytes hs _ _
  all_goals exact hs

/-- No Step writes KEY (R20, R159). -/
theorem stepWith_key {c : Config.TimerCoupling} {s t : State} (h : stepWith c s = .next t) : t.key = s.key := by
  refine stepWith_onlyChanges h .key ?_
  cases decode s.fetch <;> simp [mayChange]

theorem hostAfter_key {op : HostOp} (hop : ∀ k b, op ≠ .setKey k b) (s : State) : (hostAfter op s).key = s.key := by
  rcases hostAfter_eq_cases op s with
    ⟨_, h⟩ | ⟨bytes, _, h⟩ | ⟨_, h⟩ | ⟨k, b, keys, hset, _⟩ | ⟨_, h⟩ | h
  case inr.inr.inl => exact stepWith_key h
  case inr.inr.inr.inl => exact absurd hset (hop k b)
  all_goals rw [h]
  case inr.inl => exact s.storeBytes_key _ _
  all_goals rfl

theorem hostRun_keeps_Inv {s : State} (hs : s.Inv) (ops : List HostOp) : (hostRun ops s).Inv := by
  induction ops generalizing s with
  | nil => exact hs
  | cons op ops ih => exact ih (hostAfter_keeps_Inv hs op)

theorem hostRun_key {ops : List HostOp} (hops : ∀ op ∈ ops, ∀ k b, op ≠ .setKey k b) (s : State) :
    (hostRun ops s).key = s.key := by
  induction ops generalizing s with
  | nil => rfl
  | cons op ops ih =>
    obtain ⟨hop, hrest⟩ := List.forall_mem_cons.1 hops
    exact (ih hrest (hostAfter op s)).trans (hostAfter_key hop s)

/-- Settles O52: by induction on the sequence, from what one operation keeps. -/
theorem everyHostRunKeepsTheInvariant : Obligations.EveryHostRunKeepsTheInvariant := fun ops s hs =>
  ⟨hostRun_keeps_Inv hs ops, fun hops => hostRun_key hops s⟩

end Sys2Proof.Machine

/-! PROOFS. The Step cycle (spec/40_step_cycle.md R80 to R87): a Step from its instruction, the timers, the skips, pc, and what a
Step changes. -/

namespace Sys2Proof.Machine

/-! ### A Step from its instruction (R80) -/

theorem stepWith_eq_mapNext (c : Config.TimerCoupling) (s : State) :
    stepWith c s = mapNext (fun t => t.endStep c) (exec (decode s.fetch) s.advance) := by
  unfold stepWith
  cases exec (decode s.fetch) s.advance with
  | next _ | fault _ | refused _ => rfl

/-- An instruction that completes on the advanced state makes a Step that returns OK. -/
theorem stepOk_of_exec {s t : State} {P : State → Prop} (hexec : exec (decode s.fetch) s.advance = .next t)
    (hP : P (t.endStep .perStep)) : StepOk s P :=
  ⟨_, stepWith_of_decode_of_exec rfl hexec, hP⟩

/-- Settles O8: the two bytes at pc are the fetched word, and the end of the Step written out for each coupling. -/
theorem stepRunsTheDecodedInstruction : Obligations.StepRunsTheDecodedInstruction := by
  intro s i rest hdecode
  cases hdecode
  exact ⟨wf_decode _, stepWith_eq_mapNext .perStep s, stepWith_eq_mapNext .external s, rfl, fun f hfault =>
    have hop := (hostOp_step_fault_iff s f).2 hfault
    ⟨hop, hostAfter_of_hostOp_eq_fault hop⟩⟩

/-- Settles O13: the fault of the host operation is the Step's, and a Step's faults are those of CALL and RET. -/
theorem faultingStepCommitsNothing : Obligations.FaultingStepCommitsNothing := by
  intro s f hfault
  refine ⟨hostAfter_of_hostOp_eq_fault hfault, ?_⟩
  rcases (stepWith_fault_iff _ s f).1 ((hostOp_step_fault_iff s f).1 hfault) with ⟨hcall, _⟩ | ⟨hret, _⟩
  · exact .inl hcall
  · exact .inr hret

/-! ### Which instruction may change a piece (R25) -/

theorem dt_mem_mayChange {i : Instr} (h : .dt ∈ mayChange i) : ∃ x, i = .ldDtVx x := by
  cases i <;> simp_all [mayChange]

theorem st_mem_mayChange {i : Instr} (h : .st ∈ mayChange i) : ∃ x, i = .ldStVx x := by
  cases i <;> simp_all [mayChange]

theorem stack_mem_mayChange {i : Instr} (h : .stack ∈ mayChange i) : ∃ nnn, i = .call nnn := by
  cases i <;> simp_all [mayChange]

theorem sp_mem_mayChange {i : Instr} (h : .sp ∈ mayChange i) : i = .ret ∨ ∃ nnn, i = .call nnn := by
  cases i <;> simp_all [mayChange]

theorem i_mem_mayChange {i : Instr} (h : .i ∈ mayChange i) :
    (∃ nnn, i = .ldI nnn) ∨ (∃ x, i = .addI x) ∨ ∃ x, i = .ldIF x := by
  cases i <;> simp_all [mayChange]

theorem pix_mem_mayChange {i : Instr} (h : .pix ∈ mayChange i) : i = .cls ∨ ∃ x y n, i = .drw x y n := by
  cases i <;> simp_all [mayChange]

theorem dirty_mem_mayChange {i : Instr} (h : .dirty ∈ mayChange i) : i = .cls ∨ ∃ x y n, i = .drw x y n := by
  cases i <;> simp_all [mayChange]

/-- A piece a Step has changed, other than pc, the timers and the draw's index, is one its instruction may change. -/
theorem mem_mayChange_of_not_same {c : Config.TimerCoupling} {s t : State} {p : Piece} (h : stepWith c s = .next t)
    (hp : p ∉ [Piece.pc, .dt, .st, .draws]) (hsame : ¬p.Same s t) : p ∈ mayChange (decode s.fetch) := by
  by_contra hmem
  refine hsame (stepWith_onlyChanges h p ?_)
  simp_all

/-! ### Timers (R84) -/

theorem exec_dt {i : Instr} {s t : State} (h : exec i s = .next t) (hi : ∀ x, i ≠ .ldDtVx x) : t.dt = s.dt :=
  exec_onlyChanges h .dt fun hmem => (dt_mem_mayChange hmem).elim hi

theorem exec_st {i : Instr} {s t : State} (h : exec i s = .next t) (hi : ∀ x, i ≠ .ldStVx x) : t.st = s.st :=
  exec_onlyChanges h .st fun hmem => (st_mem_mayChange hmem).elim hi

/-- Settles O10: the tick counts down what the instruction left, which is the old timer but for the instruction that writes
it. -/
theorem timersCountEverySuccessfulStep : Obligations.TimersCountEverySuccessfulStep := by
  intro s t hstep
  obtain ⟨u, hexec, rfl⟩ := stepWith_next hstep
  refine ⟨fun hi => ?dtKept, fun x hi => ?dtWritten, fun hi => ?stKept, fun x hi => ?stWritten⟩
  case dtKept =>
    have hu : u.dt = s.dt := exec_dt (s := s.advance) hexec hi
    exact hu ▸ State.toNat_countDown u.dt
  case stKept =>
    have hu : u.st = s.st := exec_st (s := s.advance) hexec hi
    exact hu ▸ State.toNat_countDown u.st
  case dtWritten =>
    rw [hi] at hexec
    cases hexec
    exact State.toNat_countDown (s.getV x)
  case stWritten =>
    rw [hi] at hexec
    cases hexec
    exact State.toNat_countDown (s.getV x)

/-- Settles O7: the decoder's unknown words are the listed ones, and a Step on one is the advance and the end of the Step. -/
theorem unknownOpcodeIsANoOperation : Obligations.UnknownOpcodeIsANoOperation := by
  refine ⟨decode_eq_unknown_iff, fun _ _ => rfl, fun s hs => ?_⟩
  have hexec : exec (decode s.fetch) s.advance = .next s.advance := by
    rw [(decode_eq_unknown_iff _).2 hs]
    rfl
  exact stepOk_of_exec hexec ⟨rfl, State.toNat_countDown s.dt, State.toNat_countDown s.st,
    s.onlyChanges_advance.trans (s.advance.onlyChanges_endStep .perStep)⟩

/-! ### Skips (R85) -/

/-- A skip instruction is the skip primitive under its condition. -/
theorem exec_of_skipTaken {i : Instr} {s : State} {b : Bool} (h : skipTaken i s = some b) : exec i s = .next (s.skipIf b) := by
  cases i with
  | seImm | seReg | skp | sknp => cases h; rfl
  | sneImm | sneReg =>
    cases h
    rw [decide_not]
    rfl
  | _ => cases h

theorem skipTaken_advance (i : Instr) (s : State) : skipTaken i s.advance = skipTaken i s := by
  cases i <;> rfl

theorem jumpTarget_of_skipTaken {i : Instr} {s : State} {b : Bool} (h : skipTaken i s = some b) : jumpTarget i s = none := by
  cases i with
  | seImm | sneImm | seReg | sneReg | skp | sknp => rfl
  | _ => cases h

@[simp] theorem State.advance_pc (s : State) : s.advance.pc = s.pc + 2 := rfl

theorem pc_add_two_add_two (w : Word) : w + 2 + 2 = w + 4 := BitVec.add_assoc w 2 2

/-- Settles O11: the skip on the advanced pc, then the end of the Step. -/
theorem skipPassesOverOneWord : Obligations.SkipPassesOverOneWord := by
  intro s b hskip
  have hexec := exec_of_skipTaken ((skipTaken_advance _ s).trans hskip)
  refine stepOk_of_exec hexec ⟨?pc, ?frame⟩
  case pc =>
    cases b with
    | true => exact pc_add_two_add_two s.pc
    | false => rfl
  case frame =>
    exact (s.onlyChanges_advance.trans ((s.advance.onlyChanges_skipIf b).trans
      (State.onlyChanges_endStep _ .perStep))).mono (by decide)

/-! ### The program counter (R13, R87) -/

theorem State.keyPressed_of_lowestKey {s : State} {k : Nib} (h : s.lowestKey = some k) : s.keyPressed k = true :=
  List.find?_some h

theorem jumpTarget_advance (i : Instr) (s : State) : jumpTarget i s.advance = jumpTarget i s := by
  cases i <;> rfl

/-- Where an instruction leaves pc, on the advanced state: the four places of R13. -/
theorem exec_pc_cases {i : Instr} {s t : State} (h : exec i s = .next t) :
    (t.pc = s.pc + 2 ∧ skipTaken i s = some true) ∨
    (t.pc = s.pc0 ∧ (∃ x, i = .ldVxK x) ∧ ∀ k, s.keyPressed k = false) ∨
    jumpTarget i s = some t.pc ∨
    (t.pc = s.pc ∧ skipTaken i s ≠ some true ∧ jumpTarget i s = none ∧
      ((∃ x, i = .ldVxK x) → ∃ k, s.keyPressed k = true)) := by
  cases hskip : skipTaken i s with
  | some b =>
    cases h.symm.trans (exec_of_skipTaken hskip)
    cases b with
    | true => exact .inl ⟨rfl, rfl⟩
    | false =>
      refine .inr (.inr (.inr ⟨rfl, by simp, jumpTarget_of_skipTaken hskip, ?_⟩))
      rintro ⟨x, rfl⟩
      cases hskip
  | none =>
    cases i with
    | seImm | sneImm | seReg | sneReg | skp | sknp => cases hskip
    | jp | jpV0 => cases h; exact .inr (.inr (.inl rfl))
    | call nnn =>
      rcases execCall_cases nnn s with ⟨_, hexec⟩ | ⟨_, hexec⟩
      all_goals cases h.symm.trans hexec
      exact .inr (.inr (.inl rfl))
    | ret =>
      rcases execRet_cases s with ⟨_, hexec⟩ | ⟨hpos, hexec⟩
      all_goals cases h.symm.trans hexec
      exact .inr (.inr (.inl ((if_neg hpos.ne').trans (Vector.getElem?_eq_getElem _))))
    | ldVxK x =>
      rcases execLdVxK_cases x s with ⟨hnone, hexec⟩ | ⟨k, hkey, hexec⟩
      all_goals cases h.symm.trans hexec
      · exact .inr (.inl ⟨rfl, ⟨x, rfl⟩, s.lowestKey_none.1 hnone⟩)
      · exact .inr (.inr (.inr ⟨rfl, by simp, rfl, fun _ => ⟨k, State.keyPressed_of_lowestKey hkey⟩⟩))
    | _ => exact .inr (.inr (.inr ⟨exec_onlyChanges h .pc (by simp [mayChange]), by simp, rfl, nofun⟩))

/-- Settles O14: the four places of the instruction, from the advanced pc. -/
theorem programCounterAfterAStep : Obligations.ProgramCounterAfterAStep := by
  intro s t hstep
  obtain ⟨u, hexec, rfl⟩ := stepWith_next hstep
  have hcases := exec_pc_cases hexec
  rw [skipTaken_advance, jumpTarget_advance, State.pc0_advance, State.advance_pc, pc_add_two_add_two] at hcases
  exact hcases

/-! ### The draw (R87) -/

theorem State.skipIf_setDraws (s : State) (d : Nat) (c : Bool) : (s.setDraws d).skipIf c = (s.skipIf c).setDraws d := by
  cases c <;> rfl

theorem State.storeRegs_setDraws (n : Nat) (s : State) (d : Nat) :
    State.storeRegs n (s.setDraws d) = (State.storeRegs n s).setDraws d := by
  induction n with
  | zero => rfl
  | succ n ih =>
    simp only [State.storeRegs, ih]
    rfl

theorem State.loadRegs_setDraws (n : Nat) (s : State) (d : Nat) :
    State.loadRegs n (s.setDraws d) = (State.loadRegs n s).setDraws d := by
  induction n with
  | zero => rfl
  | succ n ih =>
    simp only [State.loadRegs, ih]
    rfl

theorem exec_ret_of_pos {s : State} (hpos : 0 < s.sp.val) :
    exec .ret s = .next ((s.setSp ⟨s.sp.val - 1, by omega⟩).setPc (s.stack[s.sp.val - 1]'(by omega))) := by
  rcases execRet_cases s with ⟨hempty, _⟩ | ⟨_, hexec⟩
  · exact absurd hempty hpos.ne'
  · exact hexec

theorem exec_call_of_room {s : State} (nnn : Addr12) (hroom : s.sp.val < 16) :
    exec (.call nnn) s =
      .next (((s.setStack (s.stack.set s.sp.val s.pc hroom)).setSp ⟨s.sp.val + 1, by omega⟩).setPc (zext12 nnn)) := by
  rcases execCall_cases nnn s with ⟨hfull, _⟩ | ⟨_, hexec⟩
  · exact absurd hfull hroom.ne
  · exact hexec

/-- Settles O15: none of the operations but the draw itself reads the index. -/
theorem onlyRndDependsOnTheDraw : Obligations.OnlyRndDependsOnTheDraw := by
  intro i s d hi
  cases i with
  | rnd x nn => exact absurd rfl (hi x nn)
  | ret =>
    rcases Nat.eq_zero_or_pos s.sp.val with hempty | hpos
    · rw [exec_ret_of_empty hempty, exec_ret_of_empty (s := s.setDraws d) hempty]
      rfl
    · rw [exec_ret_of_pos hpos, exec_ret_of_pos (s := s.setDraws d) hpos]
      rfl
  | call nnn =>
    rcases Nat.lt_or_ge s.sp.val 16 with hroom | hfull
    · rw [exec_call_of_room nnn hroom, exec_call_of_room (s := s.setDraws d) nnn hroom]
      rfl
    · have hfull : s.sp.val = 16 := by omega
      rw [exec_call_of_full nnn hfull, exec_call_of_full (s := s.setDraws d) nnn hfull]
      rfl
  | ldVxK x =>
    change execLdVxK x (s.setDraws d) = mapNext _ (execLdVxK x s)
    simp only [execLdVxK, State.setDraws_lowestKey]
    cases s.lowestKey with
    | none | some _ => rfl
  | seImm | sneImm | seReg | sneReg | skp | sknp => exact congrArg Host.Outcome.next (s.skipIf_setDraws d _)
  | ldMemVx => exact congrArg Host.Outcome.next (State.storeRegs_setDraws _ s d)
  | ldVxMem => exact congrArg Host.Outcome.next (State.loadRegs_setDraws _ s d)
  | _ => rfl

/-! ### What a Step changes (R11, R25) -/

/-- CLS and DRW set DIRTY (R130, R131). -/
theorem exec_dirty_of_draws {i : Instr} {s t : State} (h : exec i s = .next t) (hi : i = .cls ∨ ∃ x y n, i = .drw x y n) :
    t.dirty = true := by
  rcases hi with rfl | ⟨x, y, n, rfl⟩
  all_goals cases h; rfl

/-- No Step clears DIRTY. -/
theorem stepWith_dirty {c : Config.TimerCoupling} {s t : State} (h : stepWith c s = .next t) (hs : s.dirty = true) :
    t.dirty = true := by
  by_cases hdraws : .dirty ∈ mayChange (decode s.fetch)
  · obtain ⟨u, hexec, rfl⟩ := stepWith_next h
    rw [State.endStep_dirty]
    exact exec_dirty_of_draws hexec (dirty_mem_mayChange hdraws)
  · refine Eq.trans (b := s.dirty) ?_ hs
    by_contra hne
    exact hdraws (mem_mayChange_of_not_same h (by decide) hne)

/-- An instruction reads the draw's index, if at all, and does not move it. -/
theorem exec_draws {i : Instr} {s t : State} (h : exec i s = .next t) : t.draws = s.draws := by
  refine exec_onlyChanges h .draws ?_
  cases i <;> simp [mayChange]

theorem not_lt_of_toNat_eq_pred {a b : Byte} (h : b.toNat = a.toNat - 1) : ¬a < b := by
  rw [BitVec.lt_def]
  omega

/-- Settles O16: each piece by the instructions that may change it; memory as data by the two instructions that store; a timer
that was not written has counted down, so it has not grown. -/
theorem onlyTheListedInstructionsChangeAPiece : Obligations.OnlyTheListedInstructionsChangeAPiece := by
  intro s t hstep
  obtain ⟨hdt, -, hst, -⟩ := timersCountEverySuccessfulStep s t hstep
  have changed {p : Piece} (hp : p ∉ [Piece.pc, .dt, .st, .draws]) (hne : ¬p.Same s t) : p ∈ mayChange (decode s.fetch) :=
    mem_mayChange_of_not_same hstep hp hne
  refine ⟨stepWith_key hstep, ?draws, stepWith_dirty hstep, ?display, fun hne => ?stack, fun hne => ?sp, fun hne => ?i,
    fun hne => ?mem, fun hlt => ?dt, fun hlt => ?st⟩
  case draws =>
    obtain ⟨u, hexec, rfl⟩ := stepWith_next hstep
    have hu : u.draws = s.draws := exec_draws (s := s.advance) hexec
    rw [State.endStep_draws, hu]
  case display =>
    rintro (hne | hne)
    · exact pix_mem_mayChange (changed (by decide) hne)
    · exact dirty_mem_mayChange (changed (by decide) hne)
  case stack => exact stack_mem_mayChange (changed (by decide) hne)
  case sp => exact sp_mem_mayChange (changed (by decide) hne)
  case i => exact i_mem_mayChange (changed (by decide) hne)
  case mem =>
    obtain ⟨u, hexec, rfl⟩ := stepWith_next hstep
    rw [State.endStep_mem] at hne
    exact (exec_mem hexec).resolve_left hne
  case dt =>
    by_contra hi
    exact not_lt_of_toNat_eq_pred (hdt fun x hx => hi ⟨x, hx⟩) hlt
  case st =>
    by_contra hi
    exact not_lt_of_toNat_eq_pred (hst fun x hx => hi ⟨x, hx⟩) hlt

theorem OnlyWritesV.mem_of_ne {zs : List Nib} {s t : State} {z : Nib} (h : OnlyWritesV zs s t)
    (hne : t.getV z ≠ s.getV z) : z ∈ zs := by
  by_contra hz
  exact hne (h z hz)

theorem flagByte_eq_zero_or_one (c : Bool) : flagByte c = 0 ∨ flagByte c = 1 := by
  cases c with
  | false => exact .inl rfl
  | true => exact .inr rfl

/-- The flag is the last write of every flag writer (R112, R131), so VF is 0 or 1. -/
theorem exec_flag {i : Instr} {s t : State} (h : exec i s = .next t) (hflag : flagWriter i = true) :
    ∃ c, t.getV VF = flagByte c := by
  cases i with
  | addReg x | sub x | shr x | subn x | shl x => cases h; exact ⟨_, s.getV_writeWithFlag_VF x _ _⟩
  | drw => cases h; exact ⟨_, s.getV_setV_same VF _⟩
  | _ => cases hflag

/-- A register an instruction changes is its data destination, or VF as its flag (R25). -/
theorem exec_getV_ne {i : Instr} {s t : State} {z : Nib} (h : exec i s = .next t) (hne : t.getV z ≠ s.getV z) :
    writesData i z = true ∨ (z = VF ∧ flagWriter i = true) := by
  cases i with
  | ldImm x | addImm x | ldReg x | orReg x | andReg x | xorReg x | rnd x | ldVxDt x =>
    cases h
    exact .inl (decide_eq_true (List.mem_singleton.1 ((s.onlyWritesV_setV x _).mem_of_ne hne)))
  | ldVxK x =>
    rcases execLdVxK_cases x s with ⟨_, hexec⟩ | ⟨k, _, hexec⟩
    all_goals cases h.symm.trans hexec
    · exact absurd rfl hne
    · exact .inl (decide_eq_true (List.mem_singleton.1 ((s.onlyWritesV_setV x _).mem_of_ne hne)))
  | addReg x | sub x | shr x | subn x | shl x =>
    cases h
    rcases List.mem_cons.1 ((s.onlyWritesV_writeWithFlag x _ _).mem_of_ne hne) with hx | hVF
    · exact .inl (decide_eq_true hx)
    · exact .inr ⟨List.mem_singleton.1 hVF, rfl⟩
  | drw =>
    cases h
    exact .inr ⟨List.mem_singleton.1 ((s.onlyWritesV_setV VF _).mem_of_ne hne), rfl⟩
  | ldVxMem x =>
    cases h
    rw [State.getV_loadRegs s x.isLt] at hne
    refine .inl (decide_eq_true (BitVec.le_def.2 ?_))
    by_contra hlt
    exact hne (if_neg (by omega))
  | _ => exact absurd (exec_onlyChanges h .v (by simp [mayChange]) z) hne

/-- Settles O17: the instruction's own writes; neither the advance nor the end of the Step writes V. -/
theorem registersChangeOnlyWhereNamed : Obligations.RegistersChangeOnlyWhereNamed := by
  intro s t hstep
  obtain ⟨u, hexec, rfl⟩ := stepWith_next hstep
  refine ⟨fun hflag => ?flag, fun z hne => ?named⟩
  case flag =>
    obtain ⟨c, hc⟩ := exec_flag hexec hflag
    rw [State.endStep_getV, hc]
    exact flagByte_eq_zero_or_one c
  case named =>
    rw [State.endStep_getV] at hne
    exact exec_getV_ne hexec hne

end Sys2Proof.Machine

/-! PROOFS. RET (spec/41_control_flow.md R90), alone and after a CALL. -/

namespace Sys2Proof.Machine

/-- Settles O18: the two cases of RET, each with its outcome. -/
theorem retPopsTheStack : Obligations.RetPopsTheStack := fun s =>
  ⟨exec_ret_of_empty, fun hne => ⟨_, exec_ret_of_pos (Nat.pos_of_ne_zero hne), rfl, Vector.getElem?_eq_getElem _,
    s.onlyChanges_setSp_setPc _ _⟩⟩

/-- Settles O21: the slot the RET pops is the one the CALL wrote, and the depth goes up by one and down by one. -/
theorem retUndoesCall : Obligations.RetUndoesCall := by
  intro nnn s hroom
  refine ⟨_, exec_call_of_room nnn hroom, fun u hstack hsp => ?_⟩
  have hdepth : u.sp.val = s.sp.val + 1 := congrArg Fin.val hsp
  refine ⟨_, exec_ret_of_pos (by omega), ?pc, ?sp⟩
  case pc => simp [hstack, hdepth]
  case sp => simp [hdepth]

end Sys2Proof.Machine

/-! PROOFS. Add immediate, the logic operations, the shifts and RND (spec/42_load_alu_random.md R101 to R112). -/

namespace Sys2Proof.Machine

/-- An instruction that only writes Vx, with what is to be said of the value. -/
theorem completes_setV_with {i : Instr} {s : State} {x : Nib} {b : Byte} {P : Byte → Prop} (hb : P b)
    (hexec : exec i s = .next (s.setV x b)) :
    Completes i s fun t => P (t.getV x) ∧ OnlyWritesV [x] s t ∧ OnlyChanges [.v] s t :=
  ⟨_, hexec, (s.getV_setV_same x b).symm ▸ hb, s.onlyWritesV_setV x b, s.onlyChanges_setV x b⟩

/-- Settles O24: each of the four writes Vx alone; the sum in numbers, the others bit by bit. -/
theorem addImmediateAndLogicWriteNoFlag : Obligations.AddImmediateAndLogicWriteNoFlag := fun x y nn s =>
  ⟨completes_setV_with (P := fun b => b.toNat = ((s.getV x).toNat + nn.toNat) % 256) (BitVec.toNat_add _ _) rfl,
    completes_setV_with (P := fun b => ∀ k, b.getLsbD k = ((s.getV x).getLsbD k || (s.getV y).getLsbD k))
      (fun _ => BitVec.getLsbD_or) rfl,
    completes_setV_with (P := fun b => ∀ k, b.getLsbD k = ((s.getV x).getLsbD k && (s.getV y).getLsbD k))
      (fun _ => BitVec.getLsbD_and) rfl,
    completes_setV_with (P := fun b => ∀ k, b.getLsbD k = ((s.getV x).getLsbD k ^^ (s.getV y).getLsbD k))
      (fun _ => BitVec.getLsbD_xor) rfl⟩

theorem toNat_flagByte (c : Bool) : (flagByte c).toNat = c.toNat := by
  cases c <;> rfl

theorem toNat_shrOut (a : Byte) : (shrOut a).toNat = a.toNat % 2 := by
  rw [shrOut, BitVec.getLsbD, Nat.toNat_testBit, Nat.pow_zero, Nat.div_one]

theorem toNat_shlOut (a : Byte) : (shlOut a).toNat = a.toNat / 128 := by
  have ha : a.toNat < 256 := a.isLt
  rw [shlOut, BitVec.getLsbD, Nat.toNat_testBit]
  omega

theorem toNat_shiftRight_one (a : Byte) : (a >>> 1).toNat = a.toNat / 2 := by
  rw [BitVec.toNat_ushiftRight, Nat.shiftRight_eq_div_pow, Nat.pow_one]

theorem toNat_shiftLeft_one (a : Byte) : (a <<< 1).toNat = 2 * a.toNat % 256 := by
  rw [BitVec.toNat_shiftLeft, Nat.shiftLeft_eq, Nat.pow_one, Nat.mul_comm]

/-- An instruction that writes a result and its flag, both in numbers. -/
theorem completes_writeWithFlag_toNat {i : Instr} {s : State} {x : Nib} {r : Byte} {c : Bool} {n m : Nat} (hr : r.toNat = n)
    (hc : c.toNat = m) (hexec : exec i s = .next (s.writeWithFlag x r c)) :
    Completes i s fun t =>
      (x ≠ 0xF#4 → (t.getV x).toNat = n) ∧ (t.getV 0xF#4).toNat = m ∧
      OnlyWritesV [x, 0xF#4] s t ∧ OnlyChanges [.v] s t := by
  refine ⟨_, hexec, fun hx => ?result, ?flag, s.onlyWritesV_writeWithFlag x r c, s.onlyChanges_writeWithFlag x r c⟩
  case result => rw [s.getV_writeWithFlag_of_ne r c hx, hr]
  case flag => rw [s.getV_writeWithFlag_VF, toNat_flagByte, hc]

/-- Settles O26: each shift writes its result and the bit shifted out, both said in numbers. -/
theorem shiftsReportTheBitShiftedOut : Obligations.ShiftsReportTheBitShiftedOut := fun x _ s =>
  ⟨completes_writeWithFlag_toNat (toNat_shiftRight_one (s.getV x)) (toNat_shrOut (s.getV x)) rfl,
    completes_writeWithFlag_toNat (toNat_shiftLeft_one (s.getV x)) (toNat_shlOut (s.getV x)) rfl⟩

/-- The two writes of R112, with the flag as a number chosen by its condition. -/
theorem writeWithFlag_eq_of_iff {p : Prop} [Decidable p] (s : State) (x : Nib) (r : Byte) {c : Bool} (hc : c = true ↔ p) :
    s.writeWithFlag x r c = (s.setV x r).setV 0xF#4 (if p then 1 else 0) :=
  congrArg ((s.setV x r).setV VF) (if_congr hc rfl rfl)

/-- Settles O27: each of the five is the two writes in this order, both from the old registers. -/
theorem flagIsWrittenLast : Obligations.FlagIsWrittenLast := fun x y s =>
  ⟨congrArg Host.Outcome.next (writeWithFlag_eq_of_iff s x _ (carry_iff (s.getV x) (s.getV y))),
    congrArg Host.Outcome.next (writeWithFlag_eq_of_iff s x _ (notBorrow_iff (s.getV x) (s.getV y))), rfl,
    congrArg Host.Outcome.next (writeWithFlag_eq_of_iff s x _ (notBorrow_iff (s.getV y) (s.getV x))), rfl⟩

/-- Settles O28: Vx is the draw under the mask, and a bit outside the mask is 0 whatever the draw's bit is. -/
theorem rndWritesTheMaskedDraw : Obligations.RndWritesTheMaskedDraw := by
  intro x nn s
  refine ⟨_, rfl, fun draw hdraw => ?masked, fun k hk => ?outside, s.onlyWritesV_setV x _, s.onlyChanges_setV x _⟩
  case masked => rw [s.getV_setV_same, hdraw]
  case outside => rw [s.getV_setV_same, BitVec.getLsbD_and, hk, Bool.and_false]

end Sys2Proof.Machine

/-! PROOFS. The index register and memory transfer (spec/43_index_memory.md R121 to R125), and the fetch after a store
(spec/20_memory.md R50). -/

namespace Sys2Proof.Machine

/-- The largest glyph address is 5 * 255, so the 16-bit product does not wrap (R122). -/
theorem toNat_glyphAddr (b : Byte) : (glyphAddr b).toNat = 5 * b.toNat := by
  have hb : b.toNat < 256 := b.isLt
  rw [glyphAddr, BitVec.toNat_mul, toNat_zext8]
  simp
  omega

/-- Settles O34: both sums in numbers, and the frame of writing I. -/
theorem indexArithmetic : Obligations.IndexArithmetic := by
  intro x s
  refine ⟨⟨_, rfl, ?sum, s.onlyChanges_setI _⟩, ⟨_, rfl, toNat_glyphAddr (s.getV x), s.onlyChanges_setI _⟩⟩
  case sum =>
    rw [State.setI_i, BitVec.toNat_add, toNat_zext8]

/-! ### Registers by number -/

/-- The stored byte of a register named by its index (R124). -/
theorem State.readMem_storeRegs_nib {s : State} (hs : s.Inv) {x k : Nib} (hk : k ≤ x) :
    (State.storeRegs (x.toNat + 1) s).readMem (s.dataAddr k.toNat) = s.getV k := by
  have hlt : k.toNat < x.toNat + 1 := Nat.lt_succ_of_le (BitVec.le_def.1 hk)
  rw [State.readMem_storeRegs hs x.isLt hlt, BitVec.ofNat_toNat, BitVec.setWidth_eq]

/-- The loaded value of a register named by its index (R125). -/
theorem State.getV_loadRegs_nib (s : State) {x k : Nib} (hk : k ≤ x) :
    (State.loadRegs (x.toNat + 1) s).getV k = s.readMem (s.dataAddr k.toNat) := by
  rw [State.getV_loadRegs s x.isLt, if_pos (Nat.lt_succ_of_le (BitVec.le_def.1 hk))]

/-- Settles O35: the digits in numbers, each at its address, and the frame of storing bytes. -/
theorem bcdStoresThreeDigits : Obligations.BcdStoresThreeDigits := by
  intro x s hs
  have ha : (s.getV x).toNat < 256 := (s.getV x).isLt
  have stored {k : Nat} (hk : k < 3) :
      ((s.storeBytes (s.dataAddr 0) (bcdDigits (s.getV x))).readMem (s.dataAddr k)).toNat =
        ((bcdDigits (s.getV x))[k]'hk).toNat :=
    congrArg BitVec.toNat (State.readMem_storeBytes hs (s.dataAddr 0) (bcdDigits (s.getV x)) (show 3 ≤ 4096 by decide) hk)
  refine ⟨_, rfl, (stored (by decide)).trans ?hundreds, (stored (by decide)).trans ?tens, (stored (by decide)).trans ?ones,
    fun c hc => State.readMem_storeBytes_outside hs _ _ hc, s.onlyChanges_storeBytes _ _⟩
  all_goals exact Nat.mod_eq_of_lt (by omega)

/-- Settles O36: the stored bytes register by register, the other bytes, and the frame of storing registers. -/
theorem storeRegistersWritesExactlyItsBytes : Obligations.StoreRegistersWritesExactlyItsBytes := by
  intro x s hs
  refine ⟨_, rfl, fun k hk => State.readMem_storeRegs_nib hs hk, fun c hc => ?others, s.onlyChanges_storeRegs _⟩
  case others =>
    refine State.readMem_storeRegs_outside hs _ fun k hk => ?_
    have hx := x.isLt
    have hk' : (BitVec.ofNat 4 k).toNat = k := Nat.mod_eq_of_lt (by omega)
    have := hc (BitVec.ofNat 4 k) (BitVec.le_def.2 (by omega))
    rwa [hk'] at this

/-- Settles O37: the loaded registers, the ones above x, and the frame of loading registers. -/
theorem loadRegistersReadsExactlyItsBytes : Obligations.LoadRegistersReadsExactlyItsBytes := by
  intro x s
  refine ⟨_, rfl, fun k hk => s.getV_loadRegs_nib hk, fun k hk => ?above, s.onlyChanges_loadRegs _⟩
  case above =>
    have := BitVec.lt_def.1 hk
    rw [State.getV_loadRegs s x.isLt, if_neg (by omega)]

/-- Settles O38: with the same I the load reads the addresses of the store, and there the stored registers stand. -/
theorem loadUndoesStore : Obligations.LoadUndoesStore := by
  intro x s hs
  refine ⟨_, rfl, fun u hi hstand => ⟨_, rfl, fun k hk => ?_⟩⟩
  have haddr : u.dataAddr k.toNat = s.dataAddr k.toNat := by
    rw [State.dataAddr, hi, State.storeRegs_i, State.dataAddr]
  rw [u.getV_loadRegs_nib hk, haddr, hstand k hk, State.readMem_storeRegs_nib hs hk]

/-! ### The fetch after a store -/

/-- Settles O31: the fetch reads the addresses at which V0 and V1 were stored. -/
theorem nextFetchSeesAStore : Obligations.NextFetchSeesAStore := by
  intro x s hs hx haddr
  refine ⟨_, rfl, ?_⟩
  have hhi : memAddr s.pc.toNat = memAddr (s.dataAddr 0) := haddr.symm
  have hlo : memAddr (s.pc.toNat + 1) = memAddr (s.dataAddr 1) := by
    simp only [memAddr_eq_mod, State.dataAddr]
    omega
  have hV0 := State.readMem_storeRegs_nib hs (k := 0x0#4) (x := x) (by bv_omega)
  have hV1 := State.readMem_storeRegs_nib hs (k := 0x1#4) (x := x) (by bv_omega)
  change State.fetch (State.storeRegs (x.toNat + 1) s) = _
  rw [State.fetch, State.storeRegs_pc, State.readMem_congr _ hhi, State.readMem_congr _ hlo, wordOfBytes]
  exact congrArg₂ (· ++ ·) hV0 hV1

theorem tableWord_16 (op : Word) : tableWord 16 op.toNat = op := by
  rw [tableWord, Nat.mod_eq_of_lt op.isLt, BitVec.ofNat_toNat, BitVec.setWidth_eq]

/-- Settles O32: the placed word is what the next Step fetches, and placing it stores bytes only. -/
theorem stepRunsAPlacedWord : Obligations.StepRunsAPlacedWord := by
  intro s op hs
  rw [State.withFetchWord, tableWord_16]
  refine ⟨s.onlyChanges_storeBytes _ _, State.wf_storeBytes hs _ _, ?_⟩
  rw [step, stepWith_eq_mapNext, State.fetch_placeWord hs]
  rfl

end Sys2Proof.Machine

/-! PROOFS. `DRW` (spec/44_display.md R131, R132): one draw, and two equal draws. -/

namespace Sys2Proof.Machine

/-- A draw that starts with no collision collides exactly when some cell of the sprite is on (R131). -/
theorem State.hit_drawRows_iff (s : State) (vx vy : Byte) {n : Nat} (hn : n ≤ 32) (g : Grid) :
    (s.drawRows vx vy n ⟨g, false⟩).hit = true ↔
      ∃ cx cy, cx < 64 ∧ cy < 32 ∧ s.InSprite vx vy n cx cy ∧ g.get cx cy = true := by
  rw [(s.drawRows_drawn vx vy n hn ⟨g, false⟩).hit]
  constructor
  · rintro (hfalse | ⟨cx, cy, hS, hon⟩)
    · cases hfalse
    · exact ⟨cx % 64, cy % 32, Nat.mod_lt _ (by decide), Nat.mod_lt _ (by decide), hS,
        (g.get_congr (Nat.mod_mod _ _) (Nat.mod_mod _ _)).trans hon⟩
  · rintro ⟨cx, cy, hx, hy, hS, hon⟩
    exact .inr ⟨cx, cy, by rwa [Nat.mod_eq_of_lt hx, Nat.mod_eq_of_lt hy], hon⟩

theorem State.get_drawRows_of_inSprite {s : State} {vx vy : Byte} {n cx cy : Nat} (hn : n ≤ 32) (hx : cx < 64) (hy : cy < 32)
    (hS : s.InSprite vx vy n cx cy) (acc : DrawAcc) :
    (s.drawRows vx vy n acc).pix.get cx cy = !(acc.pix.get cx cy) :=
  (s.drawRows_drawn vx vy n hn acc).toggled cx cy (by rwa [Nat.mod_eq_of_lt hx, Nat.mod_eq_of_lt hy])

theorem State.get_drawRows_of_not_inSprite {s : State} {vx vy : Byte} {n cx cy : Nat} (hn : n ≤ 32) (hx : cx < 64)
    (hy : cy < 32) (hS : ¬s.InSprite vx vy n cx cy) (acc : DrawAcc) :
    (s.drawRows vx vy n acc).pix.get cx cy = acc.pix.get cx cy :=
  (s.drawRows_drawn vx vy n hn acc).kept cx cy (by rwa [Nat.mod_eq_of_lt hx, Nat.mod_eq_of_lt hy])

theorem nib_le_32 (n : Nib) : n.toNat ≤ 32 := n.isLt.le.trans (by decide)

/-- Settles O40: the cells and the collision of the draw unit, VF as its flag, and the frame of the three writes. -/
theorem drwXorsTheSprite : Obligations.DrwXorsTheSprite := by
  intro x y n s
  have hit_iff := s.hit_drawRows_iff (s.getV x) (s.getV y) (nib_le_32 n) s.pix
  refine ⟨_, rfl, fun cx cy hx hy => ⟨fun hS => ?toggled, fun hS => ?kept⟩, fun hon => ?collision, fun hoff => ?noCollision,
    rfl, s.onlyWritesV_setV VF _, s.onlyChanges_setFlag_setPix_setDirty _ _ _⟩
  case toggled => exact State.get_drawRows_of_inSprite (nib_le_32 n) hx hy hS _
  case kept => exact State.get_drawRows_of_not_inSprite (nib_le_32 n) hx hy hS _
  case collision => exact (s.getV_setV_same VF _).trans (if_pos (hit_iff.2 hon))
  case noCollision => exact (s.getV_setV_same VF _).trans (if_neg (mt hit_iff.1 hoff))

/-- Drawing the same rows again restores the grid (R131). -/
theorem State.drawRows_twice (s : State) (vx vy : Byte) {n : Nat} (hn : n ≤ 32) (g : Grid) (hit hit' : Bool) :
    (s.drawRows vx vy n ⟨(s.drawRows vx vy n ⟨g, hit⟩).pix, hit'⟩).pix = g := by
  refine Grid.ext fun cx cy hx hy => ?_
  by_cases hS : s.InSprite vx vy n cx cy
  · rw [State.get_drawRows_of_inSprite hn hx hy hS, State.get_drawRows_of_inSprite hn hx hy hS, Bool.not_not]
  · rw [State.get_drawRows_of_not_inSprite hn hx hy hS, State.get_drawRows_of_not_inSprite hn hx hy hS]

/-- The second of two equal draws collides exactly when some cell of the sprite was off before the first
(notes/assumptions/28.md). -/
theorem State.hit_drawRows_twice_iff (s : State) (vx vy : Byte) {n : Nat} (hn : n ≤ 32) (g : Grid) (hit : Bool) :
    (s.drawRows vx vy n ⟨(s.drawRows vx vy n ⟨g, hit⟩).pix, false⟩).hit = true ↔
      ∃ cx cy, cx < 64 ∧ cy < 32 ∧ s.InSprite vx vy n cx cy ∧ g.get cx cy = false := by
  rw [s.hit_drawRows_iff vx vy hn]
  refine exists_congr fun cx => exists_congr fun cy => and_congr_right fun hx => and_congr_right fun hy =>
    and_congr_right fun hS => ?_
  rw [State.get_drawRows_of_inSprite hn hx hy hS, Bool.not_eq_true']

theorem flagByte_eq_one_iff (c : Bool) : flagByte c = 1 ↔ c = true := by
  cases c <;> decide

/-- What a draw reads of the state is its bytes of M and I. -/
theorem State.drawRows_congr {s t : State} (hmem : t.mem = s.mem) (hi : t.i = s.i) : t.drawRows = s.drawRows := by
  funext vx vy n acc
  simp only [State.drawRows, State.readMem, State.dataAddr, hmem, hi]

/-- DRW leaves the drawn grid and the collision, and what a later draw reads of M and I (R131). -/
theorem exec_drw (x y n : Nib) (s : State) : ∃ t, exec (.drw x y n) s = .next t ∧
    t.pix = (s.drawRows (s.getV x) (s.getV y) n.toNat ⟨s.pix, false⟩).pix ∧
    t.getV VF = flagByte (s.drawRows (s.getV x) (s.getV y) n.toNat ⟨s.pix, false⟩).hit ∧
    OnlyWritesV [VF] s t ∧ t.drawRows = s.drawRows :=
  ⟨_, rfl, rfl, s.getV_setV_same VF _, s.onlyWritesV_setV VF _, State.drawRows_congr rfl rfl⟩

/-- Settles O41: the first draw changes neither the coordinates nor the sprite's bytes, so the second toggles the same cells. -/
theorem drawingTwiceRestoresTheGrid : Obligations.DrawingTwiceRestoresTheGrid := by
  intro x y n s hx hy
  obtain ⟨t, hexec, hpix, -, hV, hrows⟩ := exec_drw x y n s
  obtain ⟨u, hexec', hpix', hflag', -, -⟩ := exec_drw x y n t
  rw [hV x (by simpa using hx), hV y (by simpa using hy), hrows, hpix] at hpix' hflag'
  refine ⟨t, hexec, u, hexec', hpix'.trans (s.drawRows_twice _ _ (nib_le_32 n) _ _ _), ?_⟩
  rw [hflag', flagByte_eq_one_iff, s.hit_drawRows_twice_iff _ _ (nib_le_32 n)]

end Sys2Proof.Machine

/-! PROOFS. The keypad instructions (spec/45_keypad_timers.md R140, R141, R143). -/

namespace Sys2Proof.Machine

theorem toNat_keyIndex (b : Byte) : (keyIndex b).toNat = b.toNat % 16 := BitVec.toNat_setWidth _ _

/-- Settles O42: both are skips under the state of the key numbered Vx mod 16. -/
theorem keySkipsTestTheSelectedKey : Obligations.KeySkipsTestTheSelectedKey := by
  intro x k s hk
  obtain rfl : keyIndex (s.getV x) = k := BitVec.eq_of_toNat_eq ((toNat_keyIndex _).trans hk)
  exact ⟨completes_of_exec_eq_skipIf Iff.rfl rfl, completes_of_exec_eq_skipIf (iff_of_eq (Bool.not_eq_true' _)) rfl⟩

/-- KEY_SELECT takes the lowest pressed key (R143, D9). -/
theorem State.lowestKey_eq_some {s : State} {k : Nib} (hk : s.keyPressed k = true)
    (hlow : ∀ j, j < k → s.keyPressed j = false) : s.lowestKey = some k := by
  rw [State.lowestKey, List.find?_map, Option.map_eq_some_iff]
  refine ⟨k.toNat, List.find?_range_eq_some.2 ⟨?_, List.mem_range.2 k.isLt, fun j hj => ?_⟩, by simp⟩
  · simpa using hk
  · have hlt : BitVec.ofNat 4 j < k := by
      rw [BitVec.lt_def, BitVec.toNat_ofNat, Nat.mod_eq_of_lt (hj.trans k.isLt)]
      exact hj
    rw [Function.comp_apply, hlow _ hlt, Bool.not_false]

theorem exec_ldVxK_of_none {x : Nib} {s : State} (hnone : ∀ k, s.keyPressed k = false) :
    exec (.ldVxK x) s = .next (s.setPc s.pc0) := by
  change execLdVxK x s = _
  rw [execLdVxK, s.lowestKey_none.2 hnone]

theorem exec_ldVxK_of_some {x k : Nib} {s : State} (hk : s.lowestKey = some k) :
    exec (.ldVxK x) s = .next (s.setV x (k.setWidth 8)) := by
  change execLdVxK x s = _
  rw [execLdVxK, hk]

/-- Settles O44: no key and the lowest key by the search; a waiting Step goes back over the advance and then ends as every
Step. -/
theorem keyWaitRepollsOrLoadsTheLowestKey : Obligations.KeyWaitRepollsOrLoadsTheLowestKey := by
  intro x s
  refine ⟨fun hnone => ⟨_, exec_ldVxK_of_none hnone, rfl, s.onlyChanges_setPc _⟩, fun k hk hlow => ?lowest,
    fun hdecode hnone => ?waiting⟩
  case lowest =>
    have hvalue : (k.setWidth 8).toNat = k.toNat := BitVec.toNat_setWidth_of_le (by decide)
    exact completes_setV_with (P := fun b => b.toNat = k.toNat) hvalue
      (exec_ldVxK_of_some (State.lowestKey_eq_some hk hlow))
  case waiting =>
    have hexec : exec (decode s.fetch) s.advance = .next (s.advance.setPc s.pc) := by
      rw [hdecode, exec_ldVxK_of_none (s := s.advance) hnone, State.pc0_advance]
    have hframe : OnlyChanges [.pc, .dt, .st, .draws] s ((s.advance.setPc s.pc).endStep .perStep) :=
      (s.onlyChanges_advance.trans ((s.advance.onlyChanges_setPc s.pc).trans (State.onlyChanges_endStep _ .perStep))).mono
        (by decide)
    have hpc : ((s.advance.setPc s.pc).endStep .perStep).pc = s.pc := by rw [State.endStep_pc, State.setPc_pc]
    exact stepOk_of_exec hexec ⟨hpc, State.toNat_countDown s.dt, State.toNat_countDown s.st, hframe.of_cons (p := .pc) hpc⟩

end Sys2Proof.Machine

/-! PROOFS. Reset, LoadProgram and the other host operations (spec/60_exceptions.md R160 to R164, spec/70_reset_and_hazards.md
R180, R184). -/

namespace Sys2Proof.Machine

/-! ### Reset -/

theorem readMem_resetWith (keys : Vector Bool 16) {a : Nat} (ha : a < 4096) :
    (State.resetWith keys).readMem a = Memory.unlisted a :=
  congrArg Memory.unlisted (Nat.mod_eq_of_lt ha)

theorem unlisted_of_lt {a : Nat} (ha : a < 80) : fontTable[a]? = some (Memory.unlisted a) := by
  have ha : a < fontTable.length := ha
  simp [Memory.unlisted, ha]

theorem unlisted_of_ge {a : Nat} (ha : 80 ≤ a) : Memory.unlisted a = 0x00 := by
  have ha : fontTable.length ≤ a := ha
  simp [Memory.unlisted, ha]

/-- Settles O1: the table of R24 piece by piece, and M as the font with zero above it. -/
theorem resetLeavesTheTabulatedState : Obligations.ResetLeavesTheTabulatedState := by
  refine ⟨fun keys => ⟨rfl, fun x => ?v, rfl, fun k hk => ?stack, rfl, rfl, rfl, Grid.get_off, rfl, rfl, fun a ha => ?font,
    fun a ha ha' => ?zero⟩, rfl⟩
  case v => exact Vector.getElem_replicate _
  case stack => exact Vector.getElem?_replicate_of_lt hk
  case font => rw [readMem_resetWith keys (by omega), unlisted_of_lt ha]
  case zero => rw [readMem_resetWith keys ha', unlisted_of_ge ha]

/-- Settles O45: the state of the table, but for the draw's index. -/
theorem hostResetKeepsTheKeysAndTheDraws : Obligations.HostResetKeepsTheKeysAndTheDraws := fun _ =>
  ⟨_, rfl, State.onlyChanges_setDraws _ _, rfl, rfl⟩

/-! ### LoadProgram -/

/-- Settles O47: the stored bytes lie inside M, so they neither overlap nor wrap. -/
theorem loadProgramPlacesTheImage : Obligations.LoadProgramPlacesTheImage := by
  intro bytes s hs hlen
  refine ⟨_, hostOp_loadProgram_of_le s hlen, fun k hk => ?image, fun a ha hout => ?others, s.onlyChanges_storeBytes _ _⟩
  case image =>
    rw [List.getElem?_eq_getElem hk]
    exact congrArg some (State.readMem_storeBytes hs _ bytes (hlen.trans (by decide)) hk).symm
  case others =>
    refine State.readMem_storeBytes_outside hs _ _ fun k hk => ?_
    simp only [memAddr_eq_mod, Config.programBase]
    omega

/-! ### The other operations -/

theorem State.keyPressed_setKey_set (s : State) (k j : Nib) (b : Bool) :
    (s.setKey (s.key.set k.toNat b k.isLt)).keyPressed j = if j = k then b else s.keyPressed j := by
  simp only [State.keyPressed, State.setKey_key, Vector.getElem_set, BitVec.toNat_inj, eq_comm]

/-- Settles O49: each accessor inside and outside its domain. -/
theorem hostAccessors : Obligations.HostAccessors := fun s =>
  ⟨fun k b => ⟨_, hostOp_setKey_of_lt k.isLt b s, fun j => s.keyPressed_setKey_set k j b, s.onlyChanges_setKey _⟩,
    fun _ b hn => hostOp_setKey_of_ge hn b s,
    fun _ _ hx hy => hostOp_readPixel_of_lt ⟨hx, hy⟩ s,
    fun _ _ hout => hostOp_readPixel_of_not_lt (by omega) s,
    hostOp_soundActive s, rfl, rfl⟩

/-- Settles O48: what each host operation writes, and for a Step what its instruction may change. -/
theorem dirtyIsSetByDrawingAndClearedByConsuming : Obligations.DirtyIsSetByDrawingAndClearedByConsuming := by
  intro s
  refine ⟨⟨_, rfl, rfl, s.onlyChanges_setDirty _⟩, fun op hconsume hreset hs => ?kept, fun hdraws => ?set,
    fun op hs hset => ?only⟩
  case kept =>
    rcases hostAfter_eq_cases op s with
      ⟨h, _⟩ | ⟨bytes, _, h⟩ | ⟨_, h⟩ | ⟨k, b, keys, _, h⟩ | ⟨h, _⟩ | h
    · exact absurd h hreset
    · rw [h, State.storeBytes_dirty, hs]
    · exact stepWith_dirty h hs
    · rw [h, State.setKey_dirty, hs]
    · exact absurd h hconsume
    · rw [h, hs]
  case set =>
    obtain ⟨u, hexec⟩ : ∃ u, exec (decode s.fetch) s.advance = .next u := by
      rcases hdraws with h | ⟨x, y, n, h⟩
      all_goals rw [h]; exact ⟨_, rfl⟩
    have hstep : step s = .next (u.endStep timerCoupling) := stepWith_of_decode_of_exec rfl hexec
    rw [hostAfter_of_hostOp_eq_next (hostOp_step_of_next hstep), State.endStep_dirty]
    exact exec_dirty_of_draws hexec hdraws
  case only =>
    rcases hostAfter_eq_cases op s with
      ⟨_, h⟩ | ⟨bytes, _, h⟩ | ⟨hop, h⟩ | ⟨k, b, keys, _, h⟩ | ⟨_, h⟩ | h
    case inr.inr.inl =>
      have hne : (hostAfter op s).dirty ≠ s.dirty := by rw [hs, hset]; decide
      exact ⟨hop, dirty_mem_mayChange (mem_mayChange_of_not_same (p := .dirty) h (by decide) hne)⟩
    all_goals simp [h, hs, State.resetWith] at hset

end Sys2Proof.Machine
